-- ==== Sys2Proof/Word.lean ====
section
/-! DEFINITION. The word types of FM381: one abbreviation per width the spec gives a register, a lane or a command
(spec 00_scope.md R7, R8; 10_state.md R20 to R25). Every value is unsigned (R9); bit 0 is the least significant (R10). -/
namespace Sys2Proof

/-- A scalar limb or an X register, LIMB_BITS = 64 (R7, R20). -/
abbrev Word := BitVec 64

/-- A SIMD lane, LANE_BITS = 32 (R7). -/
abbrev Lane := BitVec 32

/-- A wide register V, 1024 bits (R21). -/
abbrev Wide := BitVec 1024

/-- The accumulator ACC, ACC_BITS = 192 (R8, R23). -/
abbrev Acc := BitVec 192

/-- A command word, CMD_BITS = 32 (R8, R70); STATUS and BADCMD are as wide (R24, R25). -/
abbrev Cmd := BitVec 32

end Sys2Proof
end

