-- ==== Sys2Proof/Syntax.lean ====
section
/-! DEFINITION. The commands of FM381 as an inductive type, one constructor per row of spec/opcode_table.json
(30_encoding.md R73), operands in the order of that rule's second column. -/
namespace Sys2Proof

/-- A scalar register number (R20, R72): all sixteen values are legal. -/
abbrev XReg := Fin 16

/-- A wide register number (R21, R72): all sixteen values are legal. -/
abbrev VReg := Fin 16

/-- A limb index into `q[0..15]` (R72): GETQ and SETQ. -/
abbrev LimbIdx := Fin 16

/-- A lane index into `d[0..31]` (R72): LMULLO, LMULHI and LINS. -/
abbrev LaneIdx := Fin 32

/-- The 27 commands (R73). A word is one of them or it is illegal (R76). -/
inductive Instr where
  /-- VZERO Vd (R220). -/
  | vzero (d : VReg)
  /-- GETQ Xd, Va, imm (R221). -/
  | getq (d : XReg) (a : VReg) (imm : LimbIdx)
  /-- SETQ Vd, Xa, imm (R222). -/
  | setq (d : VReg) (a : XReg) (imm : LimbIdx)
  /-- MAC Xd, Xk, Xa, Xb, Xc (R100). -/
  | mac (d k a b c : XReg)
  /-- ACCCLR (R102). -/
  | accclr
  /-- MACC Xa, Xb (R103). -/
  | macc (a b : XReg)
  /-- MACCD Xa, Xb (R104). -/
  | maccd (a b : XReg)
  /-- ACCSH Xd (R105). -/
  | accsh (d : XReg)
  /-- MULS Vd, Va, Vb (R120). -/
  | muls (d a b : VReg)
  /-- SQRS Vd, Va (R124). -/
  | sqrs (d a : VReg)
  /-- MULP Vd, Va, Vb (R140). -/
  | mulp (d a b : VReg)
  /-- MULH Vd, Va, Vb (R145). -/
  | mulh (d a b : VReg)
  /-- MULZ Vd, Va, Vb (R160). -/
  | mulz (d a b : VReg)
  /-- MULW Vd, Va, Vb (R163). -/
  | mulw (d a b : VReg)
  /-- CVT29 Vd, Va (R164). -/
  | cvt29 (d a : VReg)
  /-- CVT64 Vd, Va (R165). -/
  | cvt64 (d a : VReg)
  /-- TOCANP Vd, Va (R180). -/
  | tocanp (d a : VReg)
  /-- FROMCANP Vd, Va (R181). -/
  | fromcanp (d a : VReg)
  /-- TOCANH Vd, Va (R182). -/
  | tocanh (d a : VReg)
  /-- FROMCANH Vd, Va (R183). -/
  | fromcanh (d a : VReg)
  /-- TOCANZ Vd, Va (R184). -/
  | tocanz (d a : VReg)
  /-- FROMCANZ Vd, Va (R185). -/
  | fromcanz (d a : VReg)
  /-- TOCANPROD Vd, Va (R186). -/
  | tocanprod (d a : VReg)
  /-- LMULLO Vd, Va, Vb, imm (R200). -/
  | lmullo (d a b : VReg) (imm : LaneIdx)
  /-- LMULHI Vd, Va, Vb, imm (R201). -/
  | lmulhi (d a b : VReg) (imm : LaneIdx)
  /-- LSHR Vd, Va (R202). -/
  | lshr (d a : VReg)
  /-- LINS Vd, Va, imm (R203). -/
  | lins (d a : VReg) (imm : LaneIdx)
  deriving DecidableEq, Repr

end Sys2Proof
end

