-- ==== Sys2Proof/WellFormed.lean ====
section
/-! DEFINITION. Which terms of `Instr` are commands. Register numbers and indexes are in range by their types, so one
check is left: a MAC whose result and carry registers are the same is an illegal command (40_carry_chain.md R100,
30_encoding.md R75, R80). -/
namespace Sys2Proof

/-- Well-formedness of a command (R80: `if row.mnemonic = MAC and fields.rd = fields.rk: return illegal`). -/
def Instr.wf : Instr → Bool
  | .mac d k _ _ _ => d != k
  | .vzero _ => true
  | .getq _ _ _ => true
  | .setq _ _ _ => true
  | .accclr => true
  | .macc _ _ => true
  | .maccd _ _ => true
  | .accsh _ => true
  | .muls _ _ _ => true
  | .sqrs _ _ => true
  | .mulp _ _ _ => true
  | .mulh _ _ _ => true
  | .mulz _ _ _ => true
  | .mulw _ _ _ => true
  | .cvt29 _ _ => true
  | .cvt64 _ _ => true
  | .tocanp _ _ => true
  | .fromcanp _ _ => true
  | .tocanh _ _ => true
  | .fromcanh _ _ => true
  | .tocanz _ _ => true
  | .fromcanz _ _ => true
  | .tocanprod _ _ => true
  | .lmullo _ _ _ _ => true
  | .lmulhi _ _ _ _ => true
  | .lshr _ _ => true
  | .lins _ _ _ => true

end Sys2Proof
end

