-- ==== Sys2Proof/Decode.lean ====
section
/-! DEFINITION. Decoding a 32-bit command word (30_encoding.md R70 to R77, R80) and, after it, encoding a command back
into its word. `decode` is R80 as it stands: a walk over the 27 rows of R73, each a mask and a match. -/
namespace Sys2Proof

/-- `v[hi:lo]`: `floor(v / 2^lo) mod 2^(hi-lo+1)` (00_scope.md R10). -/
def bits {n : Nat} (v : BitVec n) (hi lo : Nat) : Nat :=
  v.toNat / 2 ^ lo % 2 ^ (hi - lo + 1)

/-- The 4-bit register field whose lowest bit is `lo` (R71). -/
def regField (w : Cmd) (lo : Nat) : Fin 16 := Fin.ofNat 16 (bits w (lo + 3) lo)

/-- Field `rd`, bits 23:20 (R71). -/
def fieldRd (w : Cmd) : Fin 16 := regField w 20

/-- Field `ra`, bits 19:16 (R71). -/
def fieldRa (w : Cmd) : Fin 16 := regField w 16

/-- Field `rb`, bits 15:12 (R71). -/
def fieldRb (w : Cmd) : Fin 16 := regField w 12

/-- Field `rc`, bits 11:8 (R71). -/
def fieldRc (w : Cmd) : Fin 16 := regField w 8

/-- Field `rk`, bits 7:4 (R71). -/
def fieldRk (w : Cmd) : Fin 16 := regField w 4

/-- Field `imm` as a lane index, bits 4:0, unsigned and unscaled (R71, R72). -/
def fieldImm (w : Cmd) : LaneIdx := Fin.ofNat 32 (bits w 4 0)

/-- Field `imm` as a limb index: bits 3:0, bit 4 being must-be-zero in GETQ and SETQ (R72). -/
def fieldLimb (w : Cmd) : LimbIdx := Fin.ofNat 16 (bits w 3 0)

/-- A row of the opcode map R73: word `w` is the command exactly when `w AND mask = pattern`; `build` puts the fields
the row's format uses (R71) into the command. -/
structure OpRow where
  pattern : Cmd
  mask : Cmd
  build : Cmd → Instr

/-- Family 0, move (R73). -/
def moveRows : List OpRow :=
  [ ⟨0x01000000#32, 0xFF0FFFFF#32, fun w => .vzero (fieldRd w)⟩,
    ⟨0x02000000#32, 0xFF00FFF0#32, fun w => .getq (fieldRd w) (fieldRa w) (fieldLimb w)⟩,
    ⟨0x03000000#32, 0xFF00FFF0#32, fun w => .setq (fieldRd w) (fieldRa w) (fieldLimb w)⟩ ]

/-- Family 1, carry chain (R73). In MAC the carry register is field `rk` (R71, R78). -/
def carryRows : List OpRow :=
  [ ⟨0x10000000#32, 0xFF00000F#32,
      fun w => .mac (fieldRd w) (fieldRk w) (fieldRa w) (fieldRb w) (fieldRc w)⟩,
    ⟨0x11000000#32, 0xFFFFFFFF#32, fun _ => .accclr⟩,
    ⟨0x12000000#32, 0xFFF00FFF#32, fun w => .macc (fieldRa w) (fieldRb w)⟩,
    ⟨0x13000000#32, 0xFFF00FFF#32, fun w => .maccd (fieldRa w) (fieldRb w)⟩,
    ⟨0x14000000#32, 0xFF0FFFFF#32, fun w => .accsh (fieldRd w)⟩ ]

/-- Families 2, 3 and 4: the scalar, 256-bit and 512-bit backends (R73). -/
def backendRows : List OpRow :=
  [ ⟨0x20000000#32, 0xFF000FFF#32, fun w => .muls (fieldRd w) (fieldRa w) (fieldRb w)⟩,
    ⟨0x21000000#32, 0xFF00FFFF#32, fun w => .sqrs (fieldRd w) (fieldRa w)⟩,
    ⟨0x30000000#32, 0xFF000FFF#32, fun w => .mulp (fieldRd w) (fieldRa w) (fieldRb w)⟩,
    ⟨0x31000000#32, 0xFF000FFF#32, fun w => .mulh (fieldRd w) (fieldRa w) (fieldRb w)⟩,
    ⟨0x40000000#32, 0xFF000FFF#32, fun w => .mulz (fieldRd w) (fieldRa w) (fieldRb w)⟩,
    ⟨0x41000000#32, 0xFF000FFF#32, fun w => .mulw (fieldRd w) (fieldRa w) (fieldRb w)⟩,
    ⟨0x42000000#32, 0xFF00FFFF#32, fun w => .cvt29 (fieldRd w) (fieldRa w)⟩,
    ⟨0x43000000#32, 0xFF00FFFF#32, fun w => .cvt64 (fieldRd w) (fieldRa w)⟩ ]

/-- Family 5, conversion (R73). -/
def conversionRows : List OpRow :=
  [ ⟨0x50000000#32, 0xFF00FFFF#32, fun w => .tocanp (fieldRd w) (fieldRa w)⟩,
    ⟨0x51000000#32, 0xFF00FFFF#32, fun w => .fromcanp (fieldRd w) (fieldRa w)⟩,
    ⟨0x52000000#32, 0xFF00FFFF#32, fun w => .tocanh (fieldRd w) (fieldRa w)⟩,
    ⟨0x53000000#32, 0xFF00FFFF#32, fun w => .fromcanh (fieldRd w) (fieldRa w)⟩,
    ⟨0x54000000#32, 0xFF00FFFF#32, fun w => .tocanz (fieldRd w) (fieldRa w)⟩,
    ⟨0x55000000#32, 0xFF00FFFF#32, fun w => .fromcanz (fieldRd w) (fieldRa w)⟩,
    ⟨0x56000000#32, 0xFF00FFFF#32, fun w => .tocanprod (fieldRd w) (fieldRa w)⟩ ]

/-- Family 6, lane primitives (R73). -/
def laneRows : List OpRow :=
  [ ⟨0x60000000#32, 0xFF000FE0#32,
      fun w => .lmullo (fieldRd w) (fieldRa w) (fieldRb w) (fieldImm w)⟩,
    ⟨0x61000000#32, 0xFF000FE0#32,
      fun w => .lmulhi (fieldRd w) (fieldRa w) (fieldRb w) (fieldImm w)⟩,
    ⟨0x62000000#32, 0xFF00FFFF#32, fun w => .lshr (fieldRd w) (fieldRa w)⟩,
    ⟨0x63000000#32, 0xFF00FFE0#32, fun w => .lins (fieldRd w) (fieldRa w) (fieldImm w)⟩ ]

/-- The opcode map R73, all 27 rows in the table's order. -/
def opcodeTable : List OpRow := moveRows ++ carryRows ++ backendRows ++ conversionRows ++ laneRows

/-- Why a word is illegal, by name (R74, R75, R100). The block itself does not tell them apart: each raises
ILLEGAL_COMMAND (R232). -/
inductive IllegalReason where
  /-- The opcode is not assigned (R75). -/
  | unassignedOpcode
  /-- The opcode is assigned but a must-be-zero bit of its format is 1 (R74). -/
  | mustBeZeroBit
  /-- A MAC with `rd = rk` (R100). -/
  | macSameRegister
  deriving DecidableEq, Repr

/-- What decoding a word gives (R80). -/
inductive Decoded where
  | command (i : Instr)
  | illegal (why : IllegalReason)
  deriving DecidableEq, Repr

/-- The row of R73 that a word matches, if any: `(w AND row.mask) = row.match`. -/
def matchRow (w : Cmd) : Option OpRow := opcodeTable.find? fun r => w &&& r.mask == r.pattern

/-- Whether some row of R73 has the word's opcode, bits 31:24. -/
def opcodeAssigned (w : Cmd) : Bool := opcodeTable.any fun r => bits r.pattern 31 24 == bits w 31 24

/-- Decode (R80): total on all `2^32` words. -/
def decode (w : Cmd) : Decoded :=
  match matchRow w with
  | some r => if (r.build w).wf then .command (r.build w) else .illegal .macSameRegister
  | none => .illegal (if opcodeAssigned w then .mustBeZeroBit else .unassignedOpcode)

/-- The command read from a table word: `w` is the command word itself (R70: every command is one 32-bit word, bit 0
least significant), and a number of more than 32 bits is no command word. -/
def decodeTableWord (nbits w : Nat) : Option Instr :=
  if w % 2 ^ nbits < 2 ^ 32 then
    match decode (BitVec.ofNat 32 (w % 2 ^ nbits)) with
    | .command i => some i
    | .illegal _ => none
  else none

/-- A word from its fields (R71): `op` 31:24, `rd` 23:20, `ra` 19:16, `rb` 15:12, `rc` 11:8, `rk` 7:4 and the bits
below. In the immediate formats `rc` and `rk` are 0 and `low` is `imm`, up to 31. -/
def packWord (op rd ra rb rc rk low : Nat) : Cmd :=
  BitVec.ofNat 32
    (op * 2 ^ 24 + rd * 2 ^ 20 + ra * 2 ^ 16 + rb * 2 ^ 12 + rc * 2 ^ 8 + rk * 2 ^ 4 + low)

/-- The word of a command (R71, R73). Every bit of a word is the opcode, a field or zero, so a command has one word. -/
def encode : Instr → Cmd
  | .vzero d => packWord 0x01 d 0 0 0 0 0
  | .getq d a imm => packWord 0x02 d a 0 0 0 imm
  | .setq d a imm => packWord 0x03 d a 0 0 0 imm
  | .mac d k a b c => packWord 0x10 d a b c k 0
  | .accclr => packWord 0x11 0 0 0 0 0 0
  | .macc a b => packWord 0x12 0 a b 0 0 0
  | .maccd a b => packWord 0x13 0 a b 0 0 0
  | .accsh d => packWord 0x14 d 0 0 0 0 0
  | .muls d a b => packWord 0x20 d a b 0 0 0
  | .sqrs d a => packWord 0x21 d a 0 0 0 0
  | .mulp d a b => packWord 0x30 d a b 0 0 0
  | .mulh d a b => packWord 0x31 d a b 0 0 0
  | .mulz d a b => packWord 0x40 d a b 0 0 0
  | .mulw d a b => packWord 0x41 d a b 0 0 0
  | .cvt29 d a => packWord 0x42 d a 0 0 0 0
  | .cvt64 d a => packWord 0x43 d a 0 0 0 0
  | .tocanp d a => packWord 0x50 d a 0 0 0 0
  | .fromcanp d a => packWord 0x51 d a 0 0 0 0
  | .tocanh d a => packWord 0x52 d a 0 0 0 0
  | .fromcanh d a => packWord 0x53 d a 0 0 0 0
  | .tocanz d a => packWord 0x54 d a 0 0 0 0
  | .fromcanz d a => packWord 0x55 d a 0 0 0 0
  | .tocanprod d a => packWord 0x56 d a 0 0 0 0
  | .lmullo d a b imm => packWord 0x60 d a b 0 0 imm
  | .lmulhi d a b imm => packWord 0x61 d a b 0 0 imm
  | .lshr d a => packWord 0x62 d a 0 0 0 0
  | .lins d a imm => packWord 0x63 d a 0 0 0 imm

end Sys2Proof
end

