-- ==== Sys2Proof/Config.lean ====
section
/-! DEFINITION. What is fixed for the machine (spec 00_scope.md R7, R8) and the free values the spec leaves open
(00_scope.md R13, 93_implementation_defined.md U2). -/
namespace Sys2Proof.Config

/-- FIELD_BITS (R7): the nominal operand size; a precondition of no command (R32, R121). -/
abbrev fieldBits : Nat := 381

/-- N_LIMBS (R7): 64-bit limbs of a scalar element (layout S6). -/
abbrev nLimbs : Nat := 6

/-- N_PROD_LIMBS (R7): 64-bit limbs of a scalar product (layout S12). -/
abbrev nProdLimbs : Nat := 12

/-- N_USED_LANES (R7): lanes that carry value in a packed vector element, and the used slots of layout H (R36). -/
abbrev nUsedLanes : Nat := 12

/-- N_PAD_LANES (R7): zero padding lanes of a packed vector element, and padding slots of layout H (R36). -/
abbrev nPadLanes : Nat := 4

/-- HP_DIGIT_BITS (R7): a digit of the half-packed layout H is below `2^24` (R36). -/
abbrev hpDigitBits : Nat := 24

/-- The lanes of layout L that a product can occupy: `2 * N_USED_LANES` (R37, PRODUCT_BITS = 768). -/
abbrev nProdLanes : Nat := 24

/-- `UNSPEC(1024)` of R13: the n-th unspecified value the block draws. DESIGN CHOICE of form only (log 3): it has no
body, so nothing can be proved of any value of it; the counter `State.draws` makes every draw a fresh one (U2). -/
opaque unspecified : Nat → Wide

end Sys2Proof.Config
end

