-- ==== Sys2Proof/Machine/State.lean ====
section
/-! DEFINITION. The state of FM381 (10_state.md R20 to R31) as plain data, the transactions of the host port
(20_memory.md R51), the reasons a run can stop, and the state right after reset (R30, R260). -/
namespace Sys2Proof.Machine

/-- The name of a data register: the 33 registers that carry a written bit (R29). -/
inductive RegName where
  | x (i : XReg)
  | v (i : VReg)
  | acc
  deriving DecidableEq, Repr

/-- The host transactions (R51), with whole registers as values (R53, R55). -/
inductive HostTx where
  | hreset
  | hcmd (w : Cmd)
  | hwrx (i : XReg) (val : Word)
  | hwrv (i : VReg) (val : Wide)
  | hwracc (val : Acc)
  | hrdx (i : XReg)
  | hrdv (i : VReg)
  | hrdacc
  | hrdstatus
  | hrdbadcmd
  deriving DecidableEq, Repr

/-- What a host read returned (R51). -/
inductive HostReply where
  | x (i : XReg) (val : Word)
  | v (i : VReg) (val : Wide)
  | acc (val : Acc)
  | status (val : BitVec 32)
  | badcmd (val : Cmd)
  deriving DecidableEq, Repr

/-- The state. The first five fields are the block's hardware, the next three the spec's written bits (R29), the last
three the model's own (log 3, 4, 5). The `err` output is computed from STATUS (R24, log 7). -/
structure State where
  /-- Scalar file X, sixteen registers of 64 bits, none hardwired (R20). -/
  x : Vector Word 16
  /-- Wide file V, sixteen registers of 1024 bits, none hardwired (R21). -/
  v : Vector Wide 16
  /-- Accumulator ACC, 192 bits (R23). -/
  acc : Acc
  /-- STATUS: CAUSE in bits 7:0, bits 31:8 reading 0 (R24). -/
  status : BitVec 32
  /-- BADCMD: the command word that raised the recorded fault (R25). -/
  badcmd : Cmd
  /-- Written bits of X (R29). -/
  xWritten : Vector Bool 16
  /-- Written bits of V (R29). -/
  vWritten : Vector Bool 16
  /-- Written bit of ACC (R29). -/
  accWritten : Bool
  /-- The host's transactions not yet presented, next first (R26, R58). DESIGN CHOICE (log 4). -/
  pending : List HostTx
  /-- What host reads returned, newest first (R51). DESIGN CHOICE (log 5). -/
  replies : List HostReply
  /-- How many free values have been drawn (R13, U2). DESIGN CHOICE (log 3). -/
  draws : Nat
  deriving DecidableEq, Repr

/-- Why a run stops. The block itself never stops: its three faults are next states (R236, log 15). -/
inductive Fault where
  /-- A command or a host read names a data register that is not written (R29, U1). Raised by `Safety.checkedStep`
  only, never by `step`. Safe: it stops where the hardware would go on with an unspecified value. -/
  | readUnwritten (r : RegName)
  deriving DecidableEq, Repr

/-- Why the model declines a step. -/
inductive Refusal where
  /-- An instruction without a meaning, by its mnemonic. Raised by no arm of this model: every command has its
  meaning. Safe: it stops where the hardware would go on. -/
  | notModelled (mnemonic : String)
  deriving DecidableEq, Repr

/-- The machine right after HRESET (R30, R260): STATUS = 0, BADCMD = 0, every data register unwritten. The contents of
X, V and ACC are unspecified by the spec: DESIGN CHOICE zero (log 2). Nothing is pending. -/
def State.reset : State where
  x := Vector.replicate 16 0
  v := Vector.replicate 16 0
  acc := 0
  status := 0
  badcmd := 0
  xWritten := Vector.replicate 16 false
  vWritten := Vector.replicate 16 false
  accWritten := false
  pending := []
  replies := []
  draws := 0

end Sys2Proof.Machine
end

