-- ==== Sys2Proof/Machine/Flags.lean ====
section
/-! DEFINITION. The fields of STATUS. FM381 has no flags and no condition codes (10_state.md R27); what it has is a
fault record, STATUS.CAUSE (R24), with its three codes (60_exceptions.md R230). -/
namespace Sys2Proof.Machine

/-- The three architectural faults (R230). -/
inductive Cause where
  | illegalCommand
  | notImplemented
  | accOverflow
  deriving DecidableEq, Repr

/-- The code of a fault in STATUS.CAUSE (R24, R230). -/
def Cause.code : Cause → BitVec 8
  | .illegalCommand => 1
  | .notImplemented => 2
  | .accOverflow => 3

/-- STATUS as a fault leaves it: CAUSE in bits 7:0, the reserved bits 31:8 zero (R24). -/
def Cause.statusWord (c : Cause) : BitVec 32 := c.code.setWidth 32

/-- STATUS.CAUSE, bits 7:0 (R24). -/
def State.cause (s : State) : BitVec 8 := s.status.extractLsb' 0 8

/-- STATUS as it reads (R24): CAUSE in bits 7:0, the reserved bits 31:8 hardwired 0. -/
def State.readStatus (s : State) : BitVec 32 := s.cause.setWidth 32

/-- The block is halted exactly when `STATUS.CAUSE != 0` (R24). -/
def State.halted (s : State) : Bool := s.cause != 0

/-- The `err` output, a level equal to `STATUS.CAUSE != 0` (R24, R237). -/
def State.err (s : State) : Bool := s.cause != 0

end Sys2Proof.Machine
end

