-- ==== Sys2Proof/Machine/Operands.lean ====
section
/-! DEFINITION. The views of a V register (10_state.md R22), values as sequences of limbs or lanes (00_scope.md R11),
the layouts and their validity (R32 to R37), and the read and write sets of the commands (R31). -/
namespace Sys2Proof.Machine

/-! ### Limbs and lanes -/

/-- `nat(l, n, w)`: the integer a sequence of `w`-bit limbs or lanes denotes, limb 0 least significant (R11). -/
def natOf {w : Nat} (l : Nat → BitVec w) : Nat → Nat
  | 0 => 0
  | n + 1 => natOf l n + (l n).toNat * 2 ^ (w * n)

/-- `limbs(N, n, w)[k]`: `floor(N / 2^(w*k)) mod 2^w` (R11). -/
def digitOf (w N k : Nat) : BitVec w := BitVec.ofNat w (N / 2 ^ (w * k))

/-- Lane k, `V[i].d[k] = V[i][32k+31:32k]` (R12, R22). -/
def lane (v : Wide) (k : Nat) : Lane := v.extractLsb' (32 * k) 32

/-- Limb k, `V[i].q[k] = V[i][64k+63:64k]` (R12, R22). -/
def limb (v : Wide) (k : Nat) : Word := v.extractLsb' (64 * k) 64

/-- `natd(V[i], n)` (R12). -/
def natd (v : Wide) (n : Nat) : Nat := natOf (lane v) n

/-- `natq(V[i], n)` (R12). -/
def natq (v : Wide) (n : Nat) : Nat := natOf (limb v) n

/-- The register whose 32 lanes are given (R22). -/
def ofLanes (d : Nat → Lane) : Wide := BitVec.ofNat 1024 (natOf d 32)

/-- The register whose 16 limbs are given (R22). -/
def ofLimbs (q : Nat → Word) : Wide := BitVec.ofNat 1024 (natOf q 16)

/-- The register that holds `N` in its low `n` lanes and 0 above them. -/
def putLanes (N n : Nat) : Wide := ofLanes fun k => if k < n then digitOf 32 N k else 0

/-- The register that holds `N` in its low `n` limbs and 0 above them. -/
def putLimbs (N n : Nat) : Wide := ofLimbs fun k => if k < n then digitOf 64 N k else 0

/-! ### Layouts: the value of a register and its validity -/

/-- Layout S6: the value is `natq(V[r], 6)`; every bit pattern is valid (R32). -/
def valueS6 (v : Wide) : Nat := natq v Config.nLimbs

/-- Layout S12: the value is `natq(V[r], 12)` (R33). -/
def valueS12 (v : Wide) : Nat := natq v Config.nProdLimbs

/-- Layout P: the value is `natd(V[r], 12)` (R34). -/
def valueP (v : Wide) : Nat := natd v Config.nUsedLanes

/-- Layout P is valid when the padding lanes `d[12..15]` are 0 (R34). -/
def validP (v : Wide) : Bool := (List.range Config.nPadLanes).all fun k => lane v (Config.nUsedLanes + k) == 0

/-- Layout Z: the value is `natd(V[r], 12)` (R35). -/
def valueZ (v : Wide) : Nat := natd v Config.nUsedLanes

/-- Layout Z is valid when the padding lanes `d[12..15]` are 0 (R35). -/
def validZ (v : Wide) : Bool := (List.range Config.nPadLanes).all fun k => lane v (Config.nUsedLanes + k) == 0

/-- Layout H: the value is `sum over k in 0..11 of d[2k] * 2^(32k)` (R36). -/
def valueH (v : Wide) : Nat := natOf (fun k => lane v (2 * k)) Config.nUsedLanes

/-- A used slot of layout H is valid when its digit is below `2^24` and its pre-zeroed lane is 0 (R36). -/
def validSlotH (v : Wide) (k : Nat) : Bool :=
  decide ((lane v (2 * k)).toNat < 2 ^ Config.hpDigitBits) && lane v (2 * k + 1) == 0

/-- Layout H is valid when the used slots 0 to 11 are and the padding slots 12 to 15 are 0 (R36). -/
def validH (v : Wide) : Bool :=
  (List.range Config.nUsedLanes).all (validSlotH v) &&
    (List.range Config.nPadLanes).all fun k => limb v (Config.nUsedLanes + k) == 0

/-- Layout L: the value of a product is `natd(V[r], 24)` (R37). -/
def valueL (v : Wide) : Nat := natd v Config.nProdLanes

/-- An S6 value fits layout H when each of its twelve 32-bit halves is below `2^24` (R183). -/
def fitsH (v : Wide) : Bool :=
  (List.range Config.nUsedLanes).all fun m => decide ((lane v m).toNat < 2 ^ Config.hpDigitBits)

/-! ### Read and write sets -/

/-- The data registers a command reads (R31). -/
def reads : Instr → List RegName
  | .vzero _ => []
  | .getq _ a _ => [.v a]
  | .setq d a _ => [.v d, .x a]
  | .mac _ k a b c => [.x a, .x b, .x c, .x k]
  | .accclr => []
  | .macc a b => [.acc, .x a, .x b]
  | .maccd a b => [.acc, .x a, .x b]
  | .accsh _ => [.acc]
  | .muls _ a b => [.v a, .v b]
  | .sqrs _ a => [.v a]
  | .mulp _ a b => [.v a, .v b]
  | .mulh _ a b => [.v a, .v b]
  | .mulz _ a b => [.v a, .v b]
  | .mulw _ _ _ => []
  | .cvt29 _ _ => []
  | .cvt64 _ _ => []
  | .tocanp _ a => [.v a]
  | .fromcanp _ a => [.v a]
  | .tocanh _ a => [.v a]
  | .fromcanh _ a => [.v a]
  | .tocanz _ a => [.v a]
  | .fromcanz _ a => [.v a]
  | .tocanprod _ a => [.v a]
  | .lmullo _ a b _ => [.v a, .v b]
  | .lmulhi _ a b _ => [.v a, .v b]
  | .lshr _ a => [.v a]
  | .lins d a _ => [.v d, .v a]

/-- The data registers a command writes (R31). -/
def writes : Instr → List RegName
  | .vzero d => [.v d]
  | .getq d _ _ => [.x d]
  | .setq d _ _ => [.v d]
  | .mac d k _ _ _ => [.x d, .x k]
  | .accclr => [.acc]
  | .macc _ _ => [.acc]
  | .maccd _ _ => [.acc]
  | .accsh d => [.x d, .acc]
  | .muls d _ _ => [.v d]
  | .sqrs d _ => [.v d]
  | .mulp d _ _ => [.v d]
  | .mulh d _ _ => [.v d]
  | .mulz d _ _ => [.v d]
  | .mulw _ _ _ => []
  | .cvt29 _ _ => []
  | .cvt64 _ _ => []
  | .tocanp d _ => [.v d]
  | .fromcanp d _ => [.v d]
  | .tocanh d _ => [.v d]
  | .fromcanh d _ => [.v d]
  | .tocanz d _ => [.v d]
  | .fromcanz d _ => [.v d]
  | .tocanprod d _ => [.v d]
  | .lmullo d _ _ _ => [.v d]
  | .lmulhi d _ _ _ => [.v d]
  | .lshr d _ => [.v d]
  | .lins d _ _ => [.v d]

end Sys2Proof.Machine
end

