-- ==== Sys2Proof/Machine/Ops.lean ====
section
/-! DEFINITION. The operations on registers that the meanings share, and taking a fault (60_exceptions.md R236). The
block has no memory (20_memory.md R50), so there are no memory operations, and no return from a fault but HRESET (R239,
`State.hostReset`). -/
namespace Sys2Proof.Machine

/-- `X[i]` (R12). -/
def State.readX (s : State) (i : XReg) : Word := s.x[i]

/-- `V[i]` (R12). -/
def State.readV (s : State) (i : VReg) : Wide := s.v[i]

/-- `X[i] <- w`: the whole register, which becomes written (R12, R29, R31). -/
def State.writeX (s : State) (i : XReg) (w : Word) : State :=
  { s with x := s.x.set i w, xWritten := s.xWritten.set i true }

/-- `V[i] <- w`: all 1024 bits, and the register becomes written (R12, R29, R31). -/
def State.writeV (s : State) (i : VReg) (w : Wide) : State :=
  { s with v := s.v.set i w, vWritten := s.vWritten.set i true }

/-- `ACC <- w`, and ACC becomes written (R12, R29). -/
def State.writeAcc (s : State) (w : Acc) : State :=
  { s with acc := w, accWritten := true }

/-- `V[i] <- UNSPEC(1024)`: a fresh free value, no fault, the register counts as written (R13, R38, U2; log 3). -/
def State.writeUnspecified (s : State) (i : VReg) : State :=
  { s.writeV i (Config.unspecified s.draws) with draws := s.draws + 1 }

/-- Writes a value the spec defines only when the sources are valid, else an unspecified one (R38). -/
def State.writeIfValid (s : State) (ok : Bool) (i : VReg) (w : Wide) : State :=
  if ok then s.writeV i w else s.writeUnspecified i

/-- Fault entry `raise F(w)` (R236): no data register is written, STATUS.CAUSE and BADCMD are recorded, `err` follows
STATUS. There is no program counter, mode or handler to change. -/
def State.raise (s : State) (c : Cause) (w : Cmd) : State :=
  { s with status := c.statusWord, badcmd := w }

/-- Adds a natural number into ACC; a sum of `2^192` or more raises ACC_OVERFLOW and leaves ACC as it was (R103, R104,
R107). -/
def State.accumulate (s : State) (p : Nat) (w : Cmd) : State :=
  if s.acc.toNat + p < 2 ^ 192 then s.writeAcc (BitVec.ofNat 192 (s.acc.toNat + p)) else s.raise .accOverflow w

/-- Whether a data register is written (R29). -/
def State.isWritten (s : State) : RegName → Bool
  | .x i => s.xWritten[i]
  | .v i => s.vWritten[i]
  | .acc => s.accWritten

/-- The contents of a data register as an unsigned integer (R9): two registers of one name hold the same bits exactly
when they hold the same integer. -/
def State.contents (s : State) : RegName → Nat
  | .x i => (s.readX i).toNat
  | .v i => (s.readV i).toNat
  | .acc => s.acc.toNat

/-- HRESET (R260): STATUS and BADCMD zero, every data register unwritten, halted or not. Register contents are those of
`State.reset` (DESIGN CHOICE, log 2); the host's own lists and the free-value counter go on. -/
def State.hostReset (s : State) : State :=
  { State.reset with pending := s.pending, replies := s.replies, draws := s.draws }

/-- A host read's answer (R51): the host has it, the block does not change. -/
def State.reply (s : State) (r : HostReply) : State := { s with replies := r :: s.replies }

/-- A host write: carried out when the block is not halted, ignored when it is (R51, R238). -/
def State.unlessHalted (s : State) (t : State) : State := if s.halted then s else t

end Sys2Proof.Machine
end

