-- ==== Sys2Proof/Machine/CarryChain.lean ====
section
/-! DEFINITION. The carry-chain primitives: the carry-propagate form MAC and the carry-save form ACCCLR, MACC, MACCD,
ACCSH (40_carry_chain.md R100 to R108). -/
namespace Sys2Proof.Machine

/-- `t = a + b * c + carry`, a natural number below `2^128` (R100, R101). -/
def macSum (a b c k : Word) : Nat := a.toNat + b.toNat * c.toNat + k.toNat

/-- The result `lo64(t)` (R100). -/
def macLow (a b c k : Word) : Word := BitVec.ofNat 64 (macSum a b c k)

/-- The carry out `hi64(t)` (R100). -/
def macHigh (a b c k : Word) : Word := BitVec.ofNat 64 (macSum a b c k / 2 ^ 64)

/-- MAC Xd, Xk, Xa, Xb, Xc: all four sources are read before either write; `rd = rk` is ILLEGAL_COMMAND (R100). No word
decodes to a MAC with `rd = rk`: the check stands here for the term (log 8). -/
def execMac (d k a b c : XReg) (s : State) : Host.Outcome State Fault Refusal :=
  if d = k then .next (s.raise .illegalCommand (encode (.mac d k a b c)))
  else
    .next ((s.writeX d (macLow (s.readX a) (s.readX b) (s.readX c) (s.readX k))).writeX k
      (macHigh (s.readX a) (s.readX b) (s.readX c) (s.readX k)))

/-- ACCCLR: `ACC <- 0` (R102). -/
def execAccclr (s : State) : Host.Outcome State Fault Refusal := .next (s.writeAcc 0)

/-- MACC Xa, Xb: adds the product into ACC, or raises ACC_OVERFLOW (R103, R107). -/
def execMacc (a b : XReg) (s : State) : Host.Outcome State Fault Refusal :=
  .next (s.accumulate ((s.readX a).toNat * (s.readX b).toNat) (encode (.macc a b)))

/-- MACCD Xa, Xb: adds the doubled product into ACC, or raises ACC_OVERFLOW (R104, R107). -/
def execMaccd (a b : XReg) (s : State) : Host.Outcome State Fault Refusal :=
  .next (s.accumulate (2 * (s.readX a).toNat * (s.readX b).toNat) (encode (.maccd a b)))

/-- ACCSH Xd: delivers ACC0 and shifts ACC down one limb, both from the ACC before the command (R105). -/
def execAccsh (d : XReg) (s : State) : Host.Outcome State Fault Refusal :=
  .next ((s.writeX d (s.acc.extractLsb' 0 64)).writeAcc (BitVec.ofNat 192 (s.acc.toNat / 2 ^ 64)))

end Sys2Proof.Machine
end

