-- ==== Sys2Proof/Machine/Conversion.lean ====
section
/-! DEFINITION. Cross-backend conversion: every command preserves the value of the element under the layouts
(44_conversion.md R180 to R186). -/
namespace Sys2Proof.Machine

/-- An element written in layout S6: limbs `q[0..5]`, `q[6..15]` zero (R32, R180). -/
def elementS6 (N : Nat) : Wide := putLimbs N Config.nLimbs

/-- An element written in layout P or Z: lanes `d[0..11]`, `d[12..31]` zero (R34, R35, R181). -/
def elementPacked (N : Nat) : Wide := putLanes N Config.nUsedLanes

/-- The twelve 32-bit halves of an S6 value, each as the digit of one slot: `d[2m] <- h[m]`, every other lane zero
(R183). -/
def elementH (v : Wide) : Wide :=
  ofLanes fun j => if j % 2 = 0 ∧ j < 2 * Config.nUsedLanes then lane v (j / 2) else 0

/-- TOCANP Vd, Va: layout P to layout S6; lanes `d[12..31]` are not read (R180). -/
def execTocanp (d a : VReg) (s : State) : Host.Outcome State Fault Refusal :=
  .next (s.writeV d (elementS6 (valueP (s.readV a))))

/-- FROMCANP Vd, Va: layout S6 to layout P, with its zero padding (R181). -/
def execFromcanp (d a : VReg) (s : State) : Host.Outcome State Fault Refusal :=
  .next (s.writeV d (elementPacked (valueS6 (s.readV a))))

/-- TOCANH Vd, Va: layout H to layout S6; odd lanes and slots 12 to 15 are not read (R182). -/
def execTocanh (d a : VReg) (s : State) : Host.Outcome State Fault Refusal :=
  .next (s.writeV d (elementS6 (valueH (s.readV a))))

/-- FROMCANH Vd, Va: layout S6 to layout H; a value that does not fit gives an unspecified result and no fault (R183). -/
def execFromcanh (d a : VReg) (s : State) : Host.Outcome State Fault Refusal :=
  .next (s.writeIfValid (fitsH (s.readV a)) d (elementH (s.readV a)))

/-- TOCANZ Vd, Va: layout Z to layout S6 (R184). -/
def execTocanz (d a : VReg) (s : State) : Host.Outcome State Fault Refusal :=
  .next (s.writeV d (elementS6 (valueZ (s.readV a))))

/-- FROMCANZ Vd, Va: layout S6 to layout Z (R185). -/
def execFromcanz (d a : VReg) (s : State) : Host.Outcome State Fault Refusal :=
  .next (s.writeV d (elementPacked (valueS6 (s.readV a))))

/-- TOCANPROD Vd, Va: a product from layout L to layout S12; lanes `d[24..31]` are not read (R186). -/
def execTocanprod (d a : VReg) (s : State) : Host.Outcome State Fault Refusal :=
  .next (s.writeV d (putLimbs (valueL (s.readV a)) Config.nProdLimbs))

end Sys2Proof.Machine
end

