-- ==== Sys2Proof/Machine/LanePrims.lean ====
section
/-! DEFINITION. The lane primitives over all 32 lanes: LMULLO, LMULHI, LSHR, LINS (45_lane_primitives.md R200 to R205). -/
namespace Sys2Proof.Machine

/-- `lo32(x * y)`, the low half of the 64-bit product of two lanes (R200). -/
def mulLow (x y : Lane) : Lane := BitVec.ofNat 32 (x.toNat * y.toNat)

/-- `hi32(x * y)`, the high half of the 64-bit product of two lanes (R201). -/
def mulHigh (x y : Lane) : Lane := BitVec.ofNat 32 (x.toNat * y.toNat / 2 ^ 32)

/-- `shift_right_one_lane`: every lane one position toward lane 0, a zero into lane 31 (R202). -/
def shiftRightLane (v : Wide) : Wide := ofLanes fun j => if j < 31 then lane v (j + 1) else 0

/-- `insert_lane`: lane `i` of `v` replaced by `x` (R203). -/
def insertLane (v : Wide) (i : Nat) (x : Lane) : Wide := ofLanes fun j => if j = i then x else lane v j

/-- LMULLO Vd, Va, Vb, imm: lane `imm` of `Va` times every lane of `Vb`, low halves (R200). -/
def execLmullo (d a b : VReg) (imm : LaneIdx) (s : State) : Host.Outcome State Fault Refusal :=
  .next (s.writeV d (ofLanes fun j => mulLow (lane (s.readV a) imm) (lane (s.readV b) j)))

/-- LMULHI Vd, Va, Vb, imm: lane `imm` of `Va` times every lane of `Vb`, high halves (R201). -/
def execLmulhi (d a b : VReg) (imm : LaneIdx) (s : State) : Host.Outcome State Fault Refusal :=
  .next (s.writeV d (ofLanes fun j => mulHigh (lane (s.readV a) imm) (lane (s.readV b) j)))

/-- LSHR Vd, Va (R202). -/
def execLshr (d a : VReg) (s : State) : Host.Outcome State Fault Refusal :=
  .next (s.writeV d (shiftRightLane (s.readV a)))

/-- LINS Vd, Va, imm: lane 0 of `Va` into lane `imm` of `Vd`, the other lanes as they were (R203). -/
def execLins (d a : VReg) (imm : LaneIdx) (s : State) : Host.Outcome State Fault Refusal :=
  .next (s.writeV d (insertLane (s.readV d) imm (lane (s.readV a) 0)))

end Sys2Proof.Machine
end

