-- ==== Sys2Proof/Machine/Move.lean ====
section
/-! DEFINITION. Data movement between the register files: VZERO, GETQ, SETQ (46_move.md R220 to R222). -/
namespace Sys2Proof.Machine

/-- VZERO Vd: all 1024 bits 0; reads nothing (R220). -/
def execVzero (d : VReg) (s : State) : Host.Outcome State Fault Refusal := .next (s.writeV d 0)

/-- GETQ Xd, Va, imm: `X[d] <- V[a].q[imm]` (R221). -/
def execGetq (d : XReg) (a : VReg) (imm : LimbIdx) (s : State) : Host.Outcome State Fault Refusal :=
  .next (s.writeX d (limb (s.readV a) imm))

/-- `v` with limb `i` replaced by `x` (R222). -/
def setLimb (v : Wide) (i : Nat) (x : Word) : Wide := ofLimbs fun k => if k = i then x else limb v k

/-- SETQ Vd, Xa, imm: limb `imm` of `V[d]` becomes `X[a]`, the others stay (R222). -/
def execSetq (d : VReg) (a : XReg) (imm : LimbIdx) (s : State) : Host.Outcome State Fault Refusal :=
  .next (s.writeV d (setLimb (s.readV d) imm (s.readX a)))

end Sys2Proof.Machine
end

