-- ==== Sys2Proof/Machine/Scalar.lean ====
section
/-! DEFINITION. The scalar backend: MULS and SQRS (41_scalar_mul.md R120 to R126). -/
namespace Sys2Proof.Machine

/-- A product written in layout S12: limbs `q[0..11]`, `q[12..15]` zero (R33, R120). -/
def productS12 (N : Nat) : Wide := putLimbs N Config.nProdLimbs

/-- MULS Vd, Va, Vb: the full product of two S6 values (R120). -/
def execMuls (d a b : VReg) (s : State) : Host.Outcome State Fault Refusal :=
  .next (s.writeV d (productS12 (valueS6 (s.readV a) * valueS6 (s.readV b))))

/-- SQRS Vd, Va: the square of an S6 value (R124). -/
def execSqrs (d a : VReg) (s : State) : Host.Outcome State Fault Refusal :=
  .next (s.writeV d (productS12 (valueS6 (s.readV a) * valueS6 (s.readV a))))

end Sys2Proof.Machine
end

