-- ==== Sys2Proof/Machine/Vector256.lean ====
section
/-! DEFINITION. The 256-bit vector backend: MULP and MULH (42_vector256.md R140 to R147). -/
namespace Sys2Proof.Machine

/-- A product written in layout L: lanes `d[0..23]`, `d[24..31]` zero (R37, R140). -/
def productL (N : Nat) : Wide := putLanes N Config.nProdLanes

/-- MULP Vd, Va, Vb: the product of two layout P values; a nonzero padding lane gives an unspecified result and no fault
(R140, R141). -/
def execMulp (d a b : VReg) (s : State) : Host.Outcome State Fault Refusal :=
  .next (s.writeIfValid (validP (s.readV a) && validP (s.readV b)) d
    (productL (valueP (s.readV a) * valueP (s.readV b))))

/-- MULH Vd, Va, Vb: the product of two layout H values, packed into layout L; an invalid source gives an unspecified
result and no fault (R145, R146). -/
def execMulh (d a b : VReg) (s : State) : Host.Outcome State Fault Refusal :=
  .next (s.writeIfValid (validH (s.readV a) && validH (s.readV b)) d
    (productL (valueH (s.readV a) * valueH (s.readV b))))

end Sys2Proof.Machine
end

