-- ==== Sys2Proof/Machine/Vector512.lean ====
section
/-! DEFINITION. The experimental 512-bit vector backend: MULZ, and the unfinished entry points MULW, CVT29, CVT64, which
fail loudly (43_vector512.md R160 to R166). -/
namespace Sys2Proof.Machine

/-- MULZ Vd, Va, Vb: the product of two layout Z values; a nonzero padding lane gives an unspecified result and no fault
(R160, R161). -/
def execMulz (d a b : VReg) (s : State) : Host.Outcome State Fault Refusal :=
  .next (s.writeIfValid (validZ (s.readV a) && validZ (s.readV b)) d
    (productL (valueZ (s.readV a) * valueZ (s.readV b))))

/-- MULW Vd, Va, Vb: always raises NOT_IMPLEMENTED; nothing is read or written (R163, R231). -/
def execMulw (d a b : VReg) (s : State) : Host.Outcome State Fault Refusal :=
  .next (s.raise .notImplemented (encode (.mulw d a b)))

/-- CVT29 Vd, Va: always raises NOT_IMPLEMENTED (R164, R231). -/
def execCvt29 (d a : VReg) (s : State) : Host.Outcome State Fault Refusal :=
  .next (s.raise .notImplemented (encode (.cvt29 d a)))

/-- CVT64 Vd, Va: always raises NOT_IMPLEMENTED (R165, R231). -/
def execCvt64 (d a : VReg) (s : State) : Host.Outcome State Fault Refusal :=
  .next (s.raise .notImplemented (encode (.cvt64 d a)))

end Sys2Proof.Machine
end

