-- ==== Sys2Proof/Machine/Dispatch.lean ====
section
/-! DEFINITION. Executing a decoded command: one arm per command of 30_encoding.md R73. -/
namespace Sys2Proof.Machine

def exec (i : Instr) (s : State) : Host.Outcome State Fault Refusal :=
  match i with
  | .vzero d => Sys2Proof.Machine.execVzero d s
  | .getq d a imm => Sys2Proof.Machine.execGetq d a imm s
  | .setq d a imm => Sys2Proof.Machine.execSetq d a imm s
  | .mac d k a b c => Sys2Proof.Machine.execMac d k a b c s
  | .accclr => Sys2Proof.Machine.execAccclr s
  | .macc a b => Sys2Proof.Machine.execMacc a b s
  | .maccd a b => Sys2Proof.Machine.execMaccd a b s
  | .accsh d => Sys2Proof.Machine.execAccsh d s
  | .muls d a b => Sys2Proof.Machine.execMuls d a b s
  | .sqrs d a => Sys2Proof.Machine.execSqrs d a s
  | .mulp d a b => Sys2Proof.Machine.execMulp d a b s
  | .mulh d a b => Sys2Proof.Machine.execMulh d a b s
  | .mulz d a b => Sys2Proof.Machine.execMulz d a b s
  | .mulw d a b => Sys2Proof.Machine.execMulw d a b s
  | .cvt29 d a => Sys2Proof.Machine.execCvt29 d a s
  | .cvt64 d a => Sys2Proof.Machine.execCvt64 d a s
  | .tocanp d a => Sys2Proof.Machine.execTocanp d a s
  | .fromcanp d a => Sys2Proof.Machine.execFromcanp d a s
  | .tocanh d a => Sys2Proof.Machine.execTocanh d a s
  | .fromcanh d a => Sys2Proof.Machine.execFromcanh d a s
  | .tocanz d a => Sys2Proof.Machine.execTocanz d a s
  | .fromcanz d a => Sys2Proof.Machine.execFromcanz d a s
  | .tocanprod d a => Sys2Proof.Machine.execTocanprod d a s
  | .lmullo d a b imm => Sys2Proof.Machine.execLmullo d a b imm s
  | .lmulhi d a b imm => Sys2Proof.Machine.execLmulhi d a b imm s
  | .lshr d a => Sys2Proof.Machine.execLshr d a s
  | .lins d a imm => Sys2Proof.Machine.execLins d a imm s

end Sys2Proof.Machine
end

