-- ==== Sys2Proof/Machine/HostPort.lean ====
section
/-! DEFINITION. The host port: what each host transaction does (20_memory.md R51), halted or not (60_exceptions.md R238),
and presenting the next one (R58). -/
namespace Sys2Proof.Machine

/-- HCMD(w): ignored when halted, else decoded and executed; a word that is no command raises ILLEGAL_COMMAND (R51, R80,
R232, R238). -/
def hostCommand (w : Cmd) (s : State) : Host.Outcome State Fault Refusal :=
  if s.halted then .next s
  else
    match decode w with
    | .command i => exec i s
    | .illegal _ => .next (s.raise .illegalCommand w)

/-- One host transaction, whole and atomic (R51, R55). -/
def transact (t : HostTx) (s : State) : Host.Outcome State Fault Refusal :=
  match t with
  | .hreset => .next s.hostReset
  | .hcmd w => hostCommand w s
  | .hwrx i val => .next (s.unlessHalted (s.writeX i val))
  | .hwrv i val => .next (s.unlessHalted (s.writeV i val))
  | .hwracc val => .next (s.unlessHalted (s.writeAcc val))
  | .hrdx i => .next (s.reply (.x i (s.readX i)))
  | .hrdv i => .next (s.reply (.v i (s.readV i)))
  | .hrdacc => .next (s.reply (.acc s.acc))
  | .hrdstatus => .next (s.reply (.status s.readStatus))
  | .hrdbadcmd => .next (s.reply (.badcmd s.badcmd))

/-- The state once the host has given its next transaction: that one is no longer pending (R26, R58). -/
def State.taken (s : State) (rest : List HostTx) : State := { s with pending := rest }

/-- Presents the host's next transaction; with none, the idle block holds its state (R58, R246). -/
def presentNext (s : State) : Host.Outcome State Fault Refusal :=
  match s.pending with
  | [] => .next s
  | t :: rest => transact t (s.taken rest)

/-- Makes HCMD(w) the transaction the host gives next (R51, log 4). -/
def State.giveCommand (s : State) (w : Cmd) : State := { s with pending := .hcmd w :: s.pending }

end Sys2Proof.Machine
end

