-- ==== Sys2Proof/Machine/Step.lean ====
section
/-! DEFINITION. One step: the host's next transaction (20_memory.md R51, R58). The block fetches nothing (R61): a command
word is the argument of the HCMD the host gives. -/
namespace Sys2Proof.Machine

/-- One step of the machine. -/
def step (s : State) : Host.Outcome State Fault Refusal := presentNext s

/-- `s` with the command word `w` given next by the host (log 4). The words of FM381 are all 32 bits (R70), so `nbits`
only says how many bits of `w` count. -/
def State.withFetchWord (s : State) (nbits w : Nat) : State := s.giveCommand (BitVec.ofNat 32 (w % 2 ^ nbits))

end Sys2Proof.Machine
end

