-- ==== Sys2Proof/Machine/Datapath.lean ====
section
/-! DEFINITION. The reference algorithms and datapaths the spec writes out beside the value rules: operand scanning and
Comba (41_scalar_mul.md R122), the Comba square (R126), and the round datapaths of MULP (42_vector256.md R143), MULH
(R147) and MULZ (43_vector512.md R162). None is architectural (10_state.md R28): no command calls them. They are here so
that their agreement with the commands can be stated. -/
namespace Sys2Proof.Machine

/-! ### Operand scanning (R122 (a)) -/

/-- The first `n` columns of row i: `(r[i+j], c) <- mac(r[i+j], a[i], b[j], c)`, from `c = 0`. -/
def scanColumns (x : Word) (b : Wide) (i : Nat) (r : List Word) : Nat → List Word × Word
  | 0 => (r, 0)
  | j + 1 =>
    match scanColumns x b i r j with
    | (r', c) =>
      (r'.set (i + j) (macLow (r'.getD (i + j) 0) x (limb b j) c), macHigh (r'.getD (i + j) 0) x (limb b j) c)

/-- Row i: six columns, then `r[i+6] <- c`. -/
def scanRow (x : Word) (b : Wide) (i : Nat) (r : List Word) : List Word :=
  (scanColumns x b i r 6).1.set (i + 6) (scanColumns x b i r 6).2

/-- The first `n` rows, from `r[0..11] = 0`. -/
def scanRows (a b : Wide) : Nat → List Word
  | 0 => List.replicate 12 0
  | i + 1 => scanRow (limb a i) b i (scanRows a b i)

/-- The product by operand scanning, in layout S12. -/
def operandScan (a b : Wide) : Wide := ofLimbs fun k => (scanRows a b 6).getD k 0

/-! ### Comba form (R122 (b), R126) -/

/-- Column k of a product: the sum of `a[i] * b[k-i]` over `max(0, k-5) <= i <= min(k, 5)`. -/
def combaColumn (a b : Wide) (k : Nat) : Nat :=
  ((List.range 6).map fun i => if i ≤ k ∧ k ≤ i + 5 then (limb a i).toNat * (limb b (k - i)).toNat else 0).sum

/-- Column k of a square: each cross-term `i < k - i` once and doubled, the diagonal term once (R126). -/
def squareColumn (a : Wide) (k : Nat) : Nat :=
  ((List.range 6).map fun i =>
      if i ≤ k ∧ k ≤ i + 5 ∧ i < k - i then 2 * (limb a i).toNat * (limb a (k - i)).toNat else 0).sum
    + if k % 2 = 0 then (limb a (k / 2)).toNat * (limb a (k / 2)).toNat else 0

/-- The first `n` columns: the accumulator carried on and the limbs delivered. -/
def combaColumns (col : Nat → Nat) : Nat → Nat × List Word
  | 0 => (0, [])
  | k + 1 =>
    match combaColumns col k with
    | (acc, r) => ((acc + col k) / 2 ^ 64, r ++ [BitVec.ofNat 64 (acc + col k)])

/-- Eleven columns, then `r[11] <- acc`, in layout S12. -/
def comba (col : Nat → Nat) : Wide :=
  ofLimbs fun k => ((combaColumns col 11).2 ++ [BitVec.ofNat 64 (combaColumns col 11).1]).getD k 0

/-- The product in Comba form (R122 (b)). -/
def combaProduct (a b : Wide) : Wide := comba (combaColumn a b)

/-- The square in Comba form (R126). -/
def combaSquare (a : Wide) : Wide := comba (squareColumn a)

/-! ### The round datapaths (R143, R147, R162)

Slots 0 to 16 hold natural numbers, a lane with its lane-local carry. A round adds a row into the slots, emits the low
lane, shifts the slots down one position and lands the carry in the new low slot. Rounds 0 to 15 add a row, steps 16 to
31 only flush. -/

/-- The slots with a row added. -/
def addRow (S : List Nat) (row : Nat → Nat) : List Nat := (List.range 17).map fun j => S.getD j 0 + row j

/-- `S[j] <- S[j+1]` for j in 0..15, `S[16] <- 0`, then `S[0] <- S[0] + c` with `c = floor(S[0] / 2^32)`. -/
def shiftSlots (S : List Nat) : List Nat :=
  (List.range 17).map fun j =>
    (if j < 16 then S.getD (j + 1) 0 else 0) + (if j = 0 then S.getD 0 0 / 2 ^ 32 else 0)

/-- The row round n adds: none in the flush. -/
def rowOf (row : Nat → Nat → Nat) (n : Nat) : Nat → Nat := if n < 16 then row n else fun _ => 0

/-- The slots and the lanes emitted after the first `n` of the 32 rounds and flush steps. -/
def rounds (row : Nat → Nat → Nat) : Nat → List Nat × List Lane
  | 0 => (List.replicate 17 0, [])
  | n + 1 =>
    match rounds row n with
    | (S, out) =>
      (shiftSlots (addRow S (rowOf row n)), out ++ [BitVec.ofNat 32 ((addRow S (rowOf row n)).getD 0 0)])

/-- The slots in round n after its row is added, where they are largest. -/
def slotsInRound (row : Nat → Nat → Nat) (n : Nat) : List Nat := addRow (rounds row n).1 (rowOf row n)

/-- The register the datapath emits, in layout L. -/
def emitted (row : Nat → Nat → Nat) : Wide := ofLanes fun k => (rounds row 32).2.getD k 0

/-- The row of round i in MULP: low halves into slot j, high halves into slot j + 1 (R143). -/
def rowP (a b : Wide) (i j : Nat) : Nat :=
  (if j < 16 then (mulLow (lane a i) (lane b j)).toNat else 0)
    + (if 1 ≤ j then (mulHigh (lane a i) (lane b (j - 1))).toNat else 0)

/-- The row of round i in MULH: the whole product of two digits into slot j (R147). -/
def rowH (a b : Wide) (i j : Nat) : Nat :=
  if j < 16 then (lane a (2 * i)).toNat * (lane b (2 * j)).toNat else 0

/-- The row of round i in MULZ: one widening multiply-accumulate per slot (R162). -/
def rowZ (a b : Wide) (i j : Nat) : Nat := if j < 16 then (lane a i).toNat * (lane b j).toNat else 0

end Sys2Proof.Machine
end

