-- ==== Sys2Proof/Safety.lean ====
section
/-! DEFINITION. What counts as a good run, in the terms the claims use: the spec's model-level fault on a read of an
unwritten register (10_state.md R29, 93_implementation_defined.md U1), a good state (60_exceptions.md R238), the shape of
a command's effect (R31, R236), and the invariant of the fault record (R24, R25, R230). -/
namespace Sys2Proof.Safety

open Sys2Proof.Machine

/-! ### Reads of unwritten registers (R29, U1) -/

/-- The data registers a host transaction reads in state `s`: a command's read set when it is executed, the register of
a host read; a halted block reads nothing for a command, a word that is no command reads nothing (R31, R51, R238). -/
def txReads (s : State) : HostTx → List RegName
  | .hcmd w =>
    if s.halted then []
    else
      match decode w with
      | .command i => reads i
      | .illegal _ => []
  | .hrdx i => [.x i]
  | .hrdv i => [.v i]
  | .hrdacc => [.acc]
  | .hreset => []
  | .hwrx _ _ => []
  | .hwrv _ _ => []
  | .hwracc _ => []
  | .hrdstatus => []
  | .hrdbadcmd => []

/-- The data registers the next step reads. -/
def stepReads (s : State) : List RegName :=
  match s.pending with
  | [] => []
  | t :: _ => txReads s t

/-- A step in which a read of an unwritten register stops the run, as R29 and U1 ask of a model: the hardware cannot
tell, so `step` goes on, and a claim about a run takes this step's going on as its premise. -/
def checkedStep (s : State) : Host.Outcome State Fault Refusal :=
  match (stepReads s).find? fun r => !s.isWritten r with
  | some r => .fault (.readUnwritten r)
  | none => step s

/-- Two states no host or command can tell apart without reading an unwritten register: all they hold is the same but
the contents of unwritten registers. -/
def SameWritten (s t : State) : Prop :=
  (∀ r, s.isWritten r = t.isWritten r) ∧ (∀ r, s.isWritten r = true → s.contents r = t.contents r) ∧
    s.status = t.status ∧ s.badcmd = t.badcmd ∧ s.pending = t.pending ∧ s.replies = t.replies ∧ s.draws = t.draws

/-! ### Good states -/

/-- No fault recorded: `STATUS.CAUSE = 0`, the premise of every claim about a run (R238). -/
def NoFault (s : State) : Prop := s.cause = 0

/-! ### The shape of an effect -/

/-- Every data register but those named keeps its contents and its written bit, and those named are written (R29, R31). -/
def OnlyWrites (rs : List RegName) (s t : State) : Prop :=
  (∀ r, r ∉ rs → t.contents r = s.contents r ∧ t.isWritten r = s.isWritten r) ∧ ∀ r ∈ rs, t.isWritten r = true

/-- The host's lists are as they were. -/
def HostKept (s t : State) : Prop := t.pending = s.pending ∧ t.replies = s.replies

/-- STATUS and BADCMD are as they were. -/
def ControlKept (s t : State) : Prop := t.status = s.status ∧ t.badcmd = s.badcmd

/-- A command ran, wrote the registers named and nothing else. -/
def Ran (rs : List RegName) (s t : State) : Prop :=
  OnlyWrites rs s t ∧ ControlKept s t ∧ HostKept s t ∧ t.draws = s.draws

/-- A command ran and wrote an unspecified value to V[d] and nothing else (R38). -/
def RanUnspecified (d : VReg) (s t : State) : Prop :=
  OnlyWrites [.v d] s t ∧ ControlKept s t ∧ HostKept s t ∧ t.draws = s.draws + 1

/-- Fault entry (R236): no data register written, STATUS holds the code with bits 31:8 zero, BADCMD the word, `err` is 1. -/
def Faulted (c : Cause) (w : Cmd) (s t : State) : Prop :=
  (∀ r, t.contents r = s.contents r ∧ t.isWritten r = s.isWritten r) ∧
    t.status.toNat = c.code.toNat ∧ t.badcmd = w ∧ t.err = true ∧ HostKept s t ∧ t.draws = s.draws

/-! ### The fault record -/

/-- The recorded word explains the recorded cause (R24, R25, R230, R238). With no fault STATUS and BADCMD are 0. With
cause 1 the word is no command, with cause 2 it is one of the three unfinished commands, with cause 3 it is an
accumulate whose exact sum, from the registers as the fault left them, is `2^192` or more. -/
def FaultRecorded (s : State) : Prop :=
  (s.status = 0 ∧ s.badcmd = 0) ∨
  (s.status = 1 ∧ ∃ why, decode s.badcmd = .illegal why) ∨
  (s.status = 2 ∧ ((∃ d a b, decode s.badcmd = .command (.mulw d a b)) ∨
    (∃ d a, decode s.badcmd = .command (.cvt29 d a)) ∨ ∃ d a, decode s.badcmd = .command (.cvt64 d a))) ∨
  (s.status = 3 ∧ ((∃ a b, decode s.badcmd = .command (.macc a b) ∧
      2 ^ 192 ≤ s.acc.toNat + (s.readX a).toNat * (s.readX b).toNat) ∨
    ∃ a b, decode s.badcmd = .command (.maccd a b) ∧
      2 ^ 192 ≤ s.acc.toNat + 2 * (s.readX a).toNat * (s.readX b).toNat))

/-! ### Formats, as R71 writes them in bits -/

/-- A must-be-zero bit of the word's format is 1 (R71, R74). -/
def MustBeZeroBroken (w : Cmd) : Prop :=
  (bits w 31 24 = 0x11 ∧ bits w 23 0 ≠ 0) ∨
  (bits w 31 24 ∈ [0x01, 0x14] ∧ bits w 19 0 ≠ 0) ∨
  (bits w 31 24 ∈ [0x21, 0x42, 0x43, 0x50, 0x51, 0x52, 0x53, 0x54, 0x55, 0x56, 0x62] ∧ bits w 15 0 ≠ 0) ∨
  (bits w 31 24 ∈ [0x20, 0x30, 0x31, 0x40, 0x41] ∧ bits w 11 0 ≠ 0) ∨
  (bits w 31 24 ∈ [0x12, 0x13] ∧ (bits w 23 20 ≠ 0 ∨ bits w 11 0 ≠ 0)) ∨
  (bits w 31 24 = 0x10 ∧ bits w 3 0 ≠ 0) ∨
  (bits w 31 24 = 0x63 ∧ bits w 15 5 ≠ 0) ∨
  (bits w 31 24 ∈ [0x02, 0x03] ∧ bits w 15 4 ≠ 0) ∨
  (bits w 31 24 ∈ [0x60, 0x61] ∧ bits w 11 5 ≠ 0)

/-- The word's opcode is one R75 lists as unassigned. -/
def OpcodeUnassigned (w : Cmd) : Prop :=
  bits w 31 24 = 0x00 ∨ (0x04 ≤ bits w 31 24 ∧ bits w 31 24 ≤ 0x0F) ∨ (0x15 ≤ bits w 31 24 ∧ bits w 31 24 ≤ 0x1F) ∨
  (0x22 ≤ bits w 31 24 ∧ bits w 31 24 ≤ 0x2F) ∨ (0x32 ≤ bits w 31 24 ∧ bits w 31 24 ≤ 0x3F) ∨
  (0x44 ≤ bits w 31 24 ∧ bits w 31 24 ≤ 0x4F) ∨ (0x57 ≤ bits w 31 24 ∧ bits w 31 24 ≤ 0x5F) ∨
  0x64 ≤ bits w 31 24

/-- A MAC word with `rd = rk` (R75, R100). -/
def MacSameRegister (w : Cmd) : Prop := bits w 31 24 = 0x10 ∧ bits w 23 20 = bits w 7 4

/-! ### Kinds of commands -/

/-- MACC or MACCD, the two commands that add into ACC (R103, R104). -/
def IsAccumulate (i : Instr) : Bool :=
  match i with
  | .macc _ _ => true
  | .maccd _ _ => true
  | _ => false

/-- MULW, CVT29 or CVT64, the unfinished commands (R163 to R165, R231). -/
def IsUnfinished (i : Instr) : Bool :=
  match i with
  | .mulw _ _ _ => true
  | .cvt29 _ _ => true
  | .cvt64 _ _ => true
  | _ => false

/-! ### Sequences of commands -/

/-- Executes decoded commands one after another, as the host would give them to a block that has not halted (R26, R58). -/
def execAll : List Instr → State → Host.Outcome State Fault Refusal
  | [], s => .next s
  | i :: is, s =>
    match exec i s with
    | .next t => execAll is t
    | .fault r => .fault r
    | .refused r => .refused r

end Sys2Proof.Safety
end

