-- ==== Sys2Proof/Certificates/Slice0/Obligations.lean ====
section
/-! DEFINITION. The statements for the provers. Each says which rule of spec/ it formalises. `exec` is the executing of a
decoded command, which the host port does for a block that is not halted (R51, R238): statements about `exec` hold for
every state, those about `step` say what a halted block does. Values of free draws (log 3) and register contents at
reset (log 2) are used by none. -/

open Sys2Proof Sys2Proof.Machine Sys2Proof.Safety

/-! ### Encoding (30_encoding.md) -/

/-- R71, R73, R80: decoding the word of a command gives the command, with every register number and index. -/
def Obligations.DecodeOfEncodeGivesCommand : Prop :=
  ∀ i : Instr, i.wf = true → decode (encode i) = .command i

/-- R71, R73: every bit of a command word is the opcode, a field or must-be-zero, so a command has one word. It is what
makes BADCMD the word presented (R236, log 6). -/
def Obligations.CommandHasOneWord : Prop :=
  ∀ (w : Cmd) (i : Instr), decode w = .command i → i.wf = true ∧ encode i = w

/-- R71, R73 to R76, R80: the masks of the opcode map and the must-be-zero bits of the formats say the same, and a word
is one of the 27 commands or it is illegal. -/
def Obligations.WordIsCommandUnlessARuleForbidsIt : Prop :=
  ∀ w : Cmd, (∃ i, decode w = .command i) ↔ ¬ OpcodeUnassigned w ∧ ¬ MustBeZeroBroken w ∧ ¬ MacSameRegister w

/-- R71, R73: one word written out for every family decodes to the command it stands for; a MAC with `rd = rk` and a
GETQ with bit 4 set are illegal. -/
def Obligations.SampleWordsDecode : Prop :=
  decode 0b00000001011100000000000000000000#32 = .command (.vzero 7) ∧
  decode 0b00000010111111110000000000001111#32 = .command (.getq 15 15 15) ∧
  decode 0b00010000000000010010001101000000#32 = .command (.mac 0 4 1 2 3) ∧
  decode 0b00010011000011110000000000000000#32 = .command (.maccd 15 0) ∧
  decode 0b00100000000000010010000000000000#32 = .command (.muls 0 1 2) ∧
  decode 0b00110001000000010010000000000000#32 = .command (.mulh 0 1 2) ∧
  decode 0b01000000000000010010000000000000#32 = .command (.mulz 0 1 2) ∧
  decode 0b01010011010101100000000000000000#32 = .command (.fromcanh 5 6) ∧
  decode 0b01100001000100100011000000011111#32 = .command (.lmulhi 1 2 3 31) ∧
  decode 0b01100011001101000000000000010001#32 = .command (.lins 3 4 17) ∧
  decode 0b00010000000000010010001100000000#32 = .illegal .macSameRegister ∧
  decode 0b00000010001100000000000000010001#32 = .illegal .mustBeZeroBit

/-- R74: a must-be-zero bit that is 1 raises ILLEGAL_COMMAND and has no other effect; such a word matches no row of
R73. -/
def Obligations.MustBeZeroBitRaisesIllegalCommand : Prop :=
  (∀ w : Cmd, MustBeZeroBroken w → matchRow w = none) ∧
  ∀ (s : State) (w : Cmd) (rest : List HostTx), s.pending = .hcmd w :: rest → s.halted = false →
    MustBeZeroBroken w → ∃ t, step s = .next t ∧ Faulted .illegalCommand w (s.taken rest) t

/-- R75: the opcodes the rule lists are those no row of R73 has; an unassigned opcode, and a MAC with `rd = rk`, raise
ILLEGAL_COMMAND. The all-zero and the all-ones word are among them. -/
def Obligations.UnassignedOpcodeRaisesIllegalCommand : Prop :=
  (∀ w : Cmd, OpcodeUnassigned w ↔ opcodeAssigned w = false) ∧
  (∀ (s : State) (w : Cmd) (rest : List HostTx), s.pending = .hcmd w :: rest → s.halted = false →
    OpcodeUnassigned w ∨ MacSameRegister w → ∃ t, step s = .next t ∧ Faulted .illegalCommand w (s.taken rest) t) ∧
  OpcodeUnassigned 0x00000000#32 ∧ OpcodeUnassigned 0xFFFFFFFF#32

/-! ### Steps and the host port (20_memory.md R51, R58; 60_exceptions.md; 70_reset_and_hazards.md) -/

/-- R51, R80: presenting a command word to a block that is not halted executes the decoded command, the transaction
being taken off the host's list; the same for a word given by `withFetchWord`. -/
def Obligations.StepExecutesDecodedCommand : Prop :=
  (∀ (s : State) (w : Cmd) (rest : List HostTx) (i : Instr), s.pending = .hcmd w :: rest → s.halted = false →
    decode w = .command i → step s = exec i (s.taken rest)) ∧
  ∀ (s : State) (w : Cmd) (i : Instr), s.halted = false → decode w = .command i →
    step (s.withFetchWord 32 w.toNat) = exec i s

/-- R238: a halted block ignores commands and host writes, answers host reads with the state as the fault left it, and
stays halted; only HRESET is left out here. -/
def Obligations.HaltedBlockOnlyAnswersReads : Prop :=
  ∀ (s : State) (t : HostTx) (rest : List HostTx), s.halted = true → s.pending = t :: rest → t ≠ .hreset →
    ∃ u, step s = .next u ∧ (∀ r, u.contents r = s.contents r ∧ u.isWritten r = s.isWritten r) ∧
      u.status = s.status ∧ u.badcmd = s.badcmd ∧ u.halted = true ∧ u.pending = rest ∧ u.draws = s.draws ∧
      (∀ w, t = .hcmd w → u.replies = s.replies) ∧
      (∀ i x, t = .hwrx i x → u.replies = s.replies) ∧
      (∀ i x, t = .hwrv i x → u.replies = s.replies) ∧
      (∀ x, t = .hwracc x → u.replies = s.replies) ∧
      (∀ i, t = .hrdx i → u.replies = .x i (s.readX i) :: s.replies) ∧
      (∀ i, t = .hrdv i → u.replies = .v i (s.readV i) :: s.replies) ∧
      (t = .hrdacc → u.replies = .acc s.acc :: s.replies) ∧
      (t = .hrdstatus → u.replies = .status s.readStatus :: s.replies) ∧
      (t = .hrdbadcmd → u.replies = .badcmd s.badcmd :: s.replies)

/-- R51: a host write to a block that is not halted stores the whole register and nothing else. -/
def Obligations.HostWriteStoresWholeRegister : Prop :=
  ∀ (s : State) (rest : List HostTx), s.halted = false →
    (∀ i x, s.pending = .hwrx i x :: rest →
      ∃ u, step s = .next u ∧ Ran [.x i] (s.taken rest) u ∧ u.readX i = x) ∧
    (∀ i x, s.pending = .hwrv i x :: rest →
      ∃ u, step s = .next u ∧ Ran [.v i] (s.taken rest) u ∧ u.readV i = x) ∧
    (∀ x, s.pending = .hwracc x :: rest →
      ∃ u, step s = .next u ∧ Ran [.acc] (s.taken rest) u ∧ u.acc = x)

/-- R51, R24: a host read answers with the register and changes nothing in the block, halted or not; STATUS reads CAUSE
in bits 7:0 and 0 in bits 31:8. -/
def Obligations.HostReadAnswersAndChangesNothing : Prop :=
  ∀ (s : State) (rest : List HostTx),
    (∀ i, s.pending = .hrdx i :: rest →
      step s = .next { s with pending := rest, replies := .x i (s.readX i) :: s.replies }) ∧
    (∀ i, s.pending = .hrdv i :: rest →
      step s = .next { s with pending := rest, replies := .v i (s.readV i) :: s.replies }) ∧
    (s.pending = .hrdacc :: rest → step s = .next { s with pending := rest, replies := .acc s.acc :: s.replies }) ∧
    (s.pending = .hrdbadcmd :: rest →
      step s = .next { s with pending := rest, replies := .badcmd s.badcmd :: s.replies }) ∧
    (s.pending = .hrdstatus :: rest → ∃ a, bits a 7 0 = s.cause.toNat ∧ bits a 31 8 = 0 ∧
      step s = .next { s with pending := rest, replies := .status a :: s.replies })

/-- R260: HRESET, given at any time, halted or not, zeroes STATUS and BADCMD, drops `err` and makes every data register
unwritten; nothing else resets the block; the machine's initial state is such a state. -/
def Obligations.ResetClearsFaultAndWrittenBits : Prop :=
  (∀ (s : State) (rest : List HostTx), s.pending = .hreset :: rest → ∃ u, step s = .next u ∧
    u.status = 0 ∧ u.badcmd = 0 ∧ u.err = false ∧ (∀ r, u.isWritten r = false) ∧ u.pending = rest) ∧
  (∀ s u : State, (∀ rest, s.pending ≠ .hreset :: rest) → step s = .next u →
    (∀ r, s.isWritten r = true → u.isWritten r = true) ∧ (s.halted = true → u.halted = true)) ∧
  State.reset.status = 0 ∧ State.reset.badcmd = 0 ∧ State.reset.err = false ∧
  ∀ r, State.reset.isWritten r = false

/-- R246: with no transaction pending the block holds its state. -/
def Obligations.IdleBlockHoldsItsState : Prop :=
  ∀ s : State, s.pending = [] → step s = .next s

/-- R264: no command hangs and no run stops: any number of steps from any state goes through, and each takes one
transaction off the host's list. -/
def Obligations.RunNeverStops : Prop :=
  ∀ (n : Nat) (s : State), ∃ t, core.run n s = .next t ∧ t.pending = s.pending.drop n

/-- R235, R236, R230: a command that leaves the block halted has raised one fault, with the state and the word as fault
entry says; ILLEGAL_COMMAND exactly for a word that is no command, NOT_IMPLEMENTED exactly for an unfinished command,
ACC_OVERFLOW only for an accumulate. -/
def Obligations.FaultEntryRecordsCauseAndWord : Prop :=
  ∀ (s t : State) (w : Cmd) (rest : List HostTx), s.pending = .hcmd w :: rest → s.halted = false →
    step s = .next t → t.halted = true →
    ((∃ why, decode w = .illegal why) ∧ Faulted .illegalCommand w (s.taken rest) t) ∨
    (∃ i, decode w = .command i ∧ IsUnfinished i = true ∧ Faulted .notImplemented w (s.taken rest) t) ∨
    ∃ i, decode w = .command i ∧ IsAccumulate i = true ∧ Faulted .accOverflow w (s.taken rest) t

/-- R24, R236, R238, R239: STATUS is written only by a fault and by HRESET. A fault is raised only by a command
presented to a block with no fault recorded. -/
def Obligations.StatusChangesOnlyByFaultOrReset : Prop :=
  ∀ s t : State, step s = .next t →
    (t.status = s.status ∧ t.badcmd = s.badcmd) ∨
    (∃ rest, s.pending = .hreset :: rest ∧ t.status = 0 ∧ t.badcmd = 0) ∨
    (s.cause = 0 ∧ ∃ w rest c, s.pending = .hcmd w :: rest ∧ Faulted c w (s.taken rest) t)

/-! ### Invariants -/

/-- R30: right after reset no fault is recorded. -/
def Obligations.FaultRecordExplainedAtReset : Prop := FaultRecorded State.reset

/-- R24, R25, R230, R236, R238: every step keeps the fault record explained by the recorded word and, for
ACC_OVERFLOW, by the registers as the fault left them. -/
def Obligations.StepKeepsFaultRecordExplained : Prop :=
  ∀ s t : State, FaultRecorded s → step s = .next t → FaultRecorded t

/-! ### All commands: write sets, read sets, unwritten registers (10_state.md R29, R31) -/

/-- R31, R236: a command writes the registers of its write set and no other, or it raises a fault and writes none; it
leaves the host's lists alone. Only an illegal MAC, an unfinished command or an accumulate raises one. -/
def Obligations.CommandWritesOnlyItsWriteSet : Prop :=
  ∀ (i : Instr) (s t : State), exec i s = .next t →
    (OnlyWrites (writes i) s t ∧ ControlKept s t ∧ HostKept s t) ∨
    ∃ c, Faulted c (encode i) s t ∧ (i.wf = false ∨ IsUnfinished i = true ∨ IsAccumulate i = true)

/-- R27, R28, R31, R58: what a command writes and whether it faults depend on the registers of its read set alone (and,
where the spec leaves the result unspecified, on the draw): not on STATUS, BADCMD or any other register. -/
def Obligations.ResultsDependOnlyOnReadSet : Prop :=
  ∀ (i : Instr) (s t : State), (∀ r ∈ reads i, s.contents r = t.contents r) → s.draws = t.draws →
    ∃ s' t', exec i s = .next s' ∧ exec i t = .next t' ∧ (∀ r ∈ writes i, s'.contents r = t'.contents r) ∧
      ((ControlKept s s' ∧ ControlKept t t') ∨ ∃ c, Faulted c (encode i) s s' ∧ Faulted c (encode i) t t')

/-- R29, U1: a step that reads no unwritten register is the machine's step; one that reads one stops, naming it. -/
def Obligations.CheckedStepStopsAtUnwrittenRead : Prop :=
  ∀ s : State,
    ((∀ r ∈ stepReads s, s.isWritten r = true) → checkedStep s = step s) ∧
    ((∃ r ∈ stepReads s, s.isWritten r = false) →
      ∃ r ∈ stepReads s, s.isWritten r = false ∧ checkedStep s = .fault (.readUnwritten r))

/-- R29, R30, R261: while no unwritten register is read, nothing depends on what the unwritten registers hold, so on no
value the model chose for reset (log 2). -/
def Obligations.CheckedStepsIgnoreUnwrittenContents : Prop :=
  ∀ s t s' : State, SameWritten s t → checkedStep s = .next s' → ∃ t', checkedStep t = .next t' ∧ SameWritten s' t'

/-! ### Layout views (10_state.md) -/

/-- R22: limb k is bits `64k+63 : 64k` and lane k bits `32k+31 : 32k`; limb k is the lanes 2k+1 and 2k side by side; a
register denotes the same integer either way. -/
def Obligations.LimbsAndLanesOverlay : Prop :=
  ∀ v : Wide, (∀ k < 16, (limb v k).toNat = bits v (64 * k + 63) (64 * k)) ∧
    (∀ k < 32, (lane v k).toNat = bits v (32 * k + 31) (32 * k)) ∧
    (∀ k < 16, limb v k = lane v (2 * k + 1) ++ lane v (2 * k)) ∧
    (∀ k < 16, (limb v k).toNat = (lane v (2 * k + 1)).toNat * 2 ^ 32 + (lane v (2 * k)).toNat) ∧
    ∀ n ≤ 16, natq v n = natd v (2 * n)

/-! ### Data movement (46_move.md) -/

/-- R220: VZERO writes 0 to all 1024 bits. -/
def Obligations.VzeroWritesZero : Prop :=
  ∀ (d : VReg) (s : State), ∃ t, exec (.vzero d) s = .next t ∧ Ran [.v d] s t ∧ t.readV d = 0

/-- R221: GETQ delivers bits `64*imm+63 : 64*imm` of `V[a]`. -/
def Obligations.GetqDeliversLimb : Prop :=
  ∀ (d : XReg) (a : VReg) (imm : LimbIdx) (s : State), ∃ t, exec (.getq d a imm) s = .next t ∧ Ran [.x d] s t ∧
    (t.readX d).toNat = bits (s.readV a) (64 * imm + 63) (64 * imm)

/-- R222: SETQ replaces limb `imm` of `V[d]` and keeps the other fifteen. -/
def Obligations.SetqReplacesOneLimb : Prop :=
  ∀ (d : VReg) (a : XReg) (imm : LimbIdx) (s : State), ∃ t, exec (.setq d a imm) s = .next t ∧ Ran [.v d] s t ∧
    ∀ k < 16, limb (t.readV d) k = if k = imm.val then s.readX a else limb (s.readV d) k

/-! ### Carry chain (40_carry_chain.md) -/

/-- R101: MAC loses no carry: `X[k] * 2^64 + X[d] = t` exactly, for every value of the sources, all read before the
writes. -/
def Obligations.MacLosesNoCarry : Prop :=
  ∀ (d k a b c : XReg) (s : State), d ≠ k → ∃ t, exec (.mac d k a b c) s = .next t ∧ Ran [.x d, .x k] s t ∧
    (t.readX k).toNat * 2 ^ 64 + (t.readX d).toNat =
      (s.readX a).toNat + (s.readX b).toNat * (s.readX c).toNat + (s.readX k).toNat

/-- R100 with log 8: executing the term of a MAC with `rd = rk` raises ILLEGAL_COMMAND and writes no register. -/
def Obligations.MacWithSameResultAndCarryFaults : Prop :=
  ∀ (d a b c : XReg) (s : State), s.halted = false →
    ∃ t, exec (.mac d d a b c) s = .next t ∧ Faulted .illegalCommand (encode (.mac d d a b c)) s t

/-- R102: ACCCLR clears ACC, which becomes written. -/
def Obligations.AccclrClearsAccumulator : Prop :=
  ∀ s : State, ∃ t, exec .accclr s = .next t ∧ Ran [.acc] s t ∧ t.acc = 0

/-- R103, R107: MACC adds the product, or raises ACC_OVERFLOW and leaves ACC as it was. -/
def Obligations.MaccAddsProductOrFaults : Prop :=
  ∀ (a b : XReg) (s : State),
    (s.acc.toNat + (s.readX a).toNat * (s.readX b).toNat < 2 ^ 192 →
      ∃ t, exec (.macc a b) s = .next t ∧ Ran [.acc] s t ∧
        t.acc.toNat = s.acc.toNat + (s.readX a).toNat * (s.readX b).toNat) ∧
    (s.halted = false → 2 ^ 192 ≤ s.acc.toNat + (s.readX a).toNat * (s.readX b).toNat →
      ∃ t, exec (.macc a b) s = .next t ∧ Faulted .accOverflow (encode (.macc a b)) s t)

/-- R104, R107: MACCD adds the doubled product, or raises ACC_OVERFLOW and leaves ACC as it was. -/
def Obligations.MaccdAddsDoubledProductOrFaults : Prop :=
  ∀ (a b : XReg) (s : State),
    (s.acc.toNat + 2 * (s.readX a).toNat * (s.readX b).toNat < 2 ^ 192 →
      ∃ t, exec (.maccd a b) s = .next t ∧ Ran [.acc] s t ∧
        t.acc.toNat = s.acc.toNat + 2 * (s.readX a).toNat * (s.readX b).toNat) ∧
    (s.halted = false → 2 ^ 192 ≤ s.acc.toNat + 2 * (s.readX a).toNat * (s.readX b).toNat →
      ∃ t, exec (.maccd a b) s = .next t ∧ Faulted .accOverflow (encode (.maccd a b)) s t)

/-- R104: MACCD has the effect of MACC executed twice when neither faults (the spec marks the sentence derived from
R103). -/
def Obligations.MaccdIsMaccTwice : Prop :=
  ∀ (a b : XReg) (s : State), s.acc.toNat + 2 * (s.readX a).toNat * (s.readX b).toNat < 2 ^ 192 →
    ∃ u t, exec (.macc a b) s = .next u ∧ exec (.macc a b) u = .next t ∧ exec (.maccd a b) s = .next t

/-- R105: ACCSH delivers ACC0 and moves ACC1, ACC2 and a zero down, both from the ACC before. -/
def Obligations.AccshDeliversLowLimb : Prop :=
  ∀ (d : XReg) (s : State), ∃ t, exec (.accsh d) s = .next t ∧ Ran [.x d, .acc] s t ∧
    s.acc.toNat = t.acc.toNat * 2 ^ 64 + (t.readX d).toNat ∧
    t.acc.extractLsb' 0 64 = s.acc.extractLsb' 64 64 ∧ t.acc.extractLsb' 64 64 = s.acc.extractLsb' 128 64 ∧
    t.acc.extractLsb' 128 64 = 0

/-- With ACC2 more than 4 below `2^64` neither accumulate faults, and ACC2 rises by at most 1 for MACC and 2 for MACCD
(R103, R104; that overflow needs ACC2 within 4 of `2^64` is a sentence of R107 the spec marks derived). -/
def Obligations.AccumulateRaisesTopLimbByAtMostTwo : Prop :=
  ∀ (a b : XReg) (s : State), s.acc.toNat / 2 ^ 128 + 4 < 2 ^ 64 →
    (∃ t, exec (.macc a b) s = .next t ∧ ControlKept s t ∧ t.acc.toNat / 2 ^ 128 ≤ s.acc.toNat / 2 ^ 128 + 1) ∧
    ∃ t, exec (.maccd a b) s = .next t ∧ ControlKept s t ∧ t.acc.toNat / 2 ^ 128 ≤ s.acc.toNat / 2 ^ 128 + 2

/-- No sequence of commands that starts with ACCCLR and has fewer than `2^62` accumulates overflows ACC (a sentence of
R107 the spec marks derived from R103 and R104); of legal, finished commands none faults at all. -/
def Obligations.AccumulationAfterClearNeverOverflows : Prop :=
  ∀ (l : List Instr) (s : State), (∀ i ∈ l, i.wf = true ∧ IsUnfinished i = false) →
    l.countP IsAccumulate < 2 ^ 62 → ∃ t, execAll (.accclr :: l) s = .next t ∧ ControlKept s t

/-! ### Scalar backend (41_scalar_mul.md) -/

/-- R121 (with R120): MULS writes the full product of the six-limb integers, for all operands. -/
def Obligations.MulsWritesFullProduct : Prop :=
  ∀ (d a b : VReg) (s : State), ∃ t, exec (.muls d a b) s = .next t ∧ Ran [.v d] s t ∧
    natq (t.readV d) 12 = natq (s.readV a) 6 * natq (s.readV b) 6 ∧
    ∀ k, 12 ≤ k → k < 16 → limb (t.readV d) k = 0

/-- R124: SQRS writes the square of the six-limb integer. -/
def Obligations.SqrsWritesSquare : Prop :=
  ∀ (d a : VReg) (s : State), ∃ t, exec (.sqrs d a) s = .next t ∧ Ran [.v d] s t ∧
    natq (t.readV d) 12 = natq (s.readV a) 6 * natq (s.readV a) 6 ∧
    ∀ k, 12 ≤ k → k < 16 → limb (t.readV d) k = 0

/-- R125: SQRS Vd, Va and MULS Vd, Va, Va do the same. -/
def Obligations.SqrsEqualsMulsOfItself : Prop :=
  ∀ (d a : VReg) (s : State), exec (.sqrs d a) s = exec (.muls d a a) s

/-- R122 (a): operand scanning with the MAC primitive gives what MULS writes. The algorithm is the spec's own reference.
-/
def Obligations.MulsEqualsOperandScanning : Prop :=
  ∀ (d a b : VReg) (s : State), exec (.muls d a b) s = .next (s.writeV d (operandScan (s.readV a) (s.readV b)))

/-- R122 (b): the Comba form gives what MULS writes, and the accumulator before a column is below `2^67`. -/
def Obligations.MulsEqualsCombaForm : Prop :=
  (∀ (d a b : VReg) (s : State), exec (.muls d a b) s = .next (s.writeV d (combaProduct (s.readV a) (s.readV b)))) ∧
  ∀ (a b : Wide) (k : Nat), k ≤ 11 → (combaColumns (combaColumn a b) k).1 < 2 ^ 67

/-- R126, which the spec marks derived: the squaring specialisation, each cross-term once and doubled, gives what SQRS
writes. -/
def Obligations.SqrsEqualsCombaSquare : Prop :=
  ∀ (d a : VReg) (s : State), exec (.sqrs d a) s = .next (s.writeV d (combaSquare (s.readV a)))

/-! ### Vector backends (42_vector256.md, 43_vector512.md) -/

/-- R140: with zero padding lanes in both sources MULP writes the full product in layout L. -/
def Obligations.MulpWritesFullProduct : Prop :=
  ∀ (d a b : VReg) (s : State), (∀ k, 12 ≤ k → k < 16 → lane (s.readV a) k = 0 ∧ lane (s.readV b) k = 0) →
    ∃ t, exec (.mulp d a b) s = .next t ∧ Ran [.v d] s t ∧
      natd (t.readV d) 24 = natd (s.readV a) 12 * natd (s.readV b) 12 ∧
      ∀ k, 24 ≤ k → k < 32 → lane (t.readV d) k = 0

/-- R145: with valid half-packed sources MULH writes the full product, packed into layout L and below `2^752`. -/
def Obligations.MulhWritesFullProduct : Prop :=
  ∀ (d a b : VReg) (s : State),
    (∀ v ∈ [s.readV a, s.readV b], (∀ k < 12, (lane v (2 * k)).toNat < 2 ^ 24 ∧ lane v (2 * k + 1) = 0) ∧
      ∀ k, 12 ≤ k → k < 16 → limb v k = 0) →
    ∃ t, exec (.mulh d a b) s = .next t ∧ Ran [.v d] s t ∧
      natd (t.readV d) 24 =
        natOf (fun k => lane (s.readV a) (2 * k)) 12 * natOf (fun k => lane (s.readV b) (2 * k)) 12 ∧
      natd (t.readV d) 24 < 2 ^ 752 ∧
      ∀ k, 24 ≤ k → k < 32 → lane (t.readV d) k = 0

/-- R160: with zero padding lanes in both sources MULZ writes the full product in layout L. -/
def Obligations.MulzWritesFullProduct : Prop :=
  ∀ (d a b : VReg) (s : State), (∀ k, 12 ≤ k → k < 16 → lane (s.readV a) k = 0 ∧ lane (s.readV b) k = 0) →
    ∃ t, exec (.mulz d a b) s = .next t ∧ Ran [.v d] s t ∧
      natd (t.readV d) 24 = natd (s.readV a) 12 * natd (s.readV b) 12 ∧
      ∀ k, 24 ≤ k → k < 32 → lane (t.readV d) k = 0

/-- R38, R141, R146, R161, R183: a multiplication with a source that is not valid under the layout it reads, and
FROMCANH of a value that does not fit, raise no fault, leave STATUS unchanged and write an unspecified value to the
destination only. Nothing is said of that value; that its draw advances a counter is the model's choice (log 3). -/
def Obligations.InvalidOperandsGiveUnspecifiedResult : Prop :=
  ∀ (d a b : VReg) (s : State),
    ((∃ k, 12 ≤ k ∧ k < 16 ∧ (lane (s.readV a) k ≠ 0 ∨ lane (s.readV b) k ≠ 0)) →
      (∃ t, exec (.mulp d a b) s = .next t ∧ RanUnspecified d s t) ∧
      ∃ t, exec (.mulz d a b) s = .next t ∧ RanUnspecified d s t) ∧
    ((∃ v ∈ [s.readV a, s.readV b], (∃ k < 12, 2 ^ 24 ≤ (lane v (2 * k)).toNat ∨ lane v (2 * k + 1) ≠ 0) ∨
        ∃ k, 12 ≤ k ∧ k < 16 ∧ limb v k ≠ 0) →
      ∃ t, exec (.mulh d a b) s = .next t ∧ RanUnspecified d s t) ∧
    ((∃ m < 12, 2 ^ 24 ≤ (lane (s.readV a) m).toNat) →
      ∃ t, exec (.fromcanh d a) s = .next t ∧ RanUnspecified d s t)

/-- R163 to R165, R231: MULW, CVT29 and CVT64 raise NOT_IMPLEMENTED whatever the registers hold, and write none. -/
def Obligations.UnfinishedCommandsFailLoudly : Prop :=
  ∀ (d a b : VReg) (s : State), s.halted = false →
    (∃ t, exec (.mulw d a b) s = .next t ∧ Faulted .notImplemented (encode (.mulw d a b)) s t) ∧
    (∃ t, exec (.cvt29 d a) s = .next t ∧ Faulted .notImplemented (encode (.cvt29 d a)) s t) ∧
    ∃ t, exec (.cvt64 d a) s = .next t ∧ Faulted .notImplemented (encode (.cvt64 d a)) s t

/-- R143, a reference datapath of the spec's own: the round datapath of MULP emits the product of the sixteen-lane
integers, which for valid operands is what MULP writes. -/
def Obligations.MulpEqualsRoundDatapath : Prop :=
  (∀ a b : Wide, natd (emitted (rowP a b)) 32 = natd a 16 * natd b 16) ∧
  ∀ (d a b : VReg) (s : State), validP (s.readV a) = true → validP (s.readV b) = true →
    exec (.mulp d a b) s = .next (s.writeV d (emitted (rowP (s.readV a) (s.readV b))))

/-- R143, a reference datapath of the spec's own: in every round and flush step of the MULP datapath a slot stays below
`2^39`. -/
def Obligations.MulpDatapathSlotsFitThirtyNineBits : Prop :=
  ∀ (a b : Wide) (n j : Nat), n < 32 → (slotsInRound (rowP a b) n).getD j 0 < 2 ^ 39

/-- R147, which the spec marks derived: the round datapath of MULH emits what MULH writes for valid operands, and no
slot leaves 53 bits. -/
def Obligations.MulhEqualsRoundDatapath : Prop :=
  ∀ (d a b : VReg) (s : State), validH (s.readV a) = true → validH (s.readV b) = true →
    exec (.mulh d a b) s = .next (s.writeV d (emitted (rowH (s.readV a) (s.readV b)))) ∧
    ∀ n j : Nat, n < 32 → (slotsInRound (rowH (s.readV a) (s.readV b)) n).getD j 0 < 2 ^ 53

/-- R162, a reference datapath of the spec's own: the round datapath of MULZ emits what MULZ writes for valid operands,
and no slot leaves 69 bits. -/
def Obligations.MulzEqualsRoundDatapath : Prop :=
  ∀ (d a b : VReg) (s : State), validZ (s.readV a) = true → validZ (s.readV b) = true →
    exec (.mulz d a b) s = .next (s.writeV d (emitted (rowZ (s.readV a) (s.readV b)))) ∧
    ∀ n j : Nat, n < 32 → (slotsInRound (rowZ (s.readV a) (s.readV b)) n).getD j 0 < 2 ^ 69

/-! ### Conversions (44_conversion.md) -/

/-- R180, R182, R184: the to-canonical conversions keep the element's value, for valid and invalid sources alike, and
write a whole S6 register. -/
def Obligations.ToCanonicalKeepsValue : Prop :=
  ∀ (d a : VReg) (s : State),
    (∃ t, exec (.tocanp d a) s = .next t ∧ Ran [.v d] s t ∧ natq (t.readV d) 6 = natd (s.readV a) 12 ∧
      ∀ k, 6 ≤ k → k < 16 → limb (t.readV d) k = 0) ∧
    (∃ t, exec (.tocanz d a) s = .next t ∧ Ran [.v d] s t ∧ natq (t.readV d) 6 = natd (s.readV a) 12 ∧
      ∀ k, 6 ≤ k → k < 16 → limb (t.readV d) k = 0) ∧
    ∃ t, exec (.tocanh d a) s = .next t ∧ Ran [.v d] s t ∧
      natq (t.readV d) 6 = natOf (fun m => lane (s.readV a) (2 * m)) 12 ∧
      ∀ k, 6 ≤ k → k < 16 → limb (t.readV d) k = 0

/-- R181, R185: FROMCANP and FROMCANZ keep the value of every S6 source and write zero padding, so the result is
valid. -/
def Obligations.FromCanonicalPackedKeepsValue : Prop :=
  ∀ (d a : VReg) (s : State),
    (∃ t, exec (.fromcanp d a) s = .next t ∧ Ran [.v d] s t ∧ natd (t.readV d) 12 = natq (s.readV a) 6 ∧
      ∀ k, 12 ≤ k → k < 32 → lane (t.readV d) k = 0) ∧
    ∃ t, exec (.fromcanz d a) s = .next t ∧ Ran [.v d] s t ∧ natd (t.readV d) 12 = natq (s.readV a) 6 ∧
      ∀ k, 12 ≤ k → k < 32 → lane (t.readV d) k = 0

/-- R183: FROMCANH of a value whose twelve 32-bit halves are below `2^24` puts each half in a slot, keeps the value and
gives a valid H register. -/
def Obligations.FromcanhKeepsFittingValue : Prop :=
  ∀ (d a : VReg) (s : State), (∀ m < 12, (lane (s.readV a) m).toNat < 2 ^ 24) →
    ∃ t, exec (.fromcanh d a) s = .next t ∧ Ran [.v d] s t ∧
      (∀ m < 12, lane (t.readV d) (2 * m) = lane (s.readV a) m ∧ lane (t.readV d) (2 * m + 1) = 0) ∧
      (∀ k, 12 ≤ k → k < 16 → limb (t.readV d) k = 0) ∧
      natOf (fun m => lane (t.readV d) (2 * m)) 12 = natq (s.readV a) 6 ∧ validH (t.readV d) = true

/-- R186: TOCANPROD keeps the product's value in layout S12. -/
def Obligations.TocanprodKeepsProduct : Prop :=
  ∀ (d a : VReg) (s : State), ∃ t, exec (.tocanprod d a) s = .next t ∧ Ran [.v d] s t ∧
    natq (t.readV d) 12 = natd (s.readV a) 24 ∧ ∀ k, 12 ≤ k → k < 16 → limb (t.readV d) k = 0

/-- R188, which the spec marks derived: as bits, TOCANP, FROMCANP, TOCANZ and FROMCANZ keep the low 384 bits, TOCANPROD
the low 768; TOCANH gathers even lanes, FROMCANH scatters lanes to even places when they fit. -/
def Obligations.ConversionsAsBits : Prop :=
  ∀ (d a : VReg) (s : State),
    (∀ i ∈ [Instr.tocanp d a, .fromcanp d a, .tocanz d a, .fromcanz d a], ∃ t, exec i s = .next t ∧
      (t.readV d).toNat = (s.readV a).toNat % 2 ^ 384) ∧
    (∃ t, exec (.tocanprod d a) s = .next t ∧ (t.readV d).toNat = (s.readV a).toNat % 2 ^ 768) ∧
    (∃ t, exec (.tocanh d a) s = .next t ∧
      ∀ m < 32, lane (t.readV d) m = if m < 12 then lane (s.readV a) (2 * m) else 0) ∧
    ((∀ m < 12, (lane (s.readV a) m).toNat < 2 ^ 24) → ∃ t, exec (.fromcanh d a) s = .next t ∧
      ∀ j < 32, lane (t.readV d) j = if j % 2 = 0 ∧ j < 24 then lane (s.readV a) (j / 2) else 0)

/-- R187, which the spec marks derived: to canonical and back gives the lanes of a valid register again, with zero
outside the layout. -/
def Obligations.ToThenFromCanonicalIsIdentity : Prop :=
  ∀ (e d a : VReg) (s : State),
    (validP (s.readV a) = true → ∃ t u, exec (.tocanp e a) s = .next t ∧ exec (.fromcanp d e) t = .next u ∧
      ∀ k < 32, lane (u.readV d) k = if k < 16 then lane (s.readV a) k else 0) ∧
    (validZ (s.readV a) = true → ∃ t u, exec (.tocanz e a) s = .next t ∧ exec (.fromcanz d e) t = .next u ∧
      ∀ k < 32, lane (u.readV d) k = if k < 16 then lane (s.readV a) k else 0) ∧
    (validH (s.readV a) = true → ∃ t u, exec (.tocanh e a) s = .next t ∧ exec (.fromcanh d e) t = .next u ∧
      u.readV d = s.readV a)

/-- R187, the other direction, which the spec marks derived: from canonical and back gives the six limbs of a value that
fits the layout again, with zero above them. -/
def Obligations.FromThenToCanonicalIsIdentity : Prop :=
  ∀ (e d a : VReg) (s : State),
    (∃ t u, exec (.fromcanp e a) s = .next t ∧ exec (.tocanp d e) t = .next u ∧
      ∀ k < 16, limb (u.readV d) k = if k < 6 then limb (s.readV a) k else 0) ∧
    (∃ t u, exec (.fromcanz e a) s = .next t ∧ exec (.tocanz d e) t = .next u ∧
      ∀ k < 16, limb (u.readV d) k = if k < 6 then limb (s.readV a) k else 0) ∧
    (fitsH (s.readV a) = true → ∃ t u, exec (.fromcanh e a) s = .next t ∧ exec (.tocanh d e) t = .next u ∧
      ∀ k < 16, limb (u.readV d) k = if k < 6 then limb (s.readV a) k else 0)

/-- R148, which the spec marks derived: converting, multiplying in a vector backend and converting the product back leaves
the 1024 bits MULS writes: for MULP (and MULZ) on every pair of S6 values, for MULH on every pair that fits layout H. The
registers may be any, so long as `b` is converted from its own value: not overwritten before (`e ≠ b`) nor over the
converted `a` (`f ≠ e`), unless it is `a` itself. The last three clauses are the square with one converted register, which
may be the source. -/
def Obligations.VectorBackendsAgreeWithScalar : Prop :=
  ∀ (a b e f p q : VReg) (s m : State), exec (.muls q a b) s = .next m →
    ((a = b ∨ (e ≠ b ∧ f ≠ e)) →
      ∃ t₁ t₂ t₃ t₄, exec (.fromcanp e a) s = .next t₁ ∧ exec (.fromcanp f b) t₁ = .next t₂ ∧
        exec (.mulp p e f) t₂ = .next t₃ ∧ exec (.tocanprod q p) t₃ = .next t₄ ∧ t₄.readV q = m.readV q) ∧
    ((a = b ∨ (e ≠ b ∧ f ≠ e)) →
      ∃ t₁ t₂ t₃ t₄, exec (.fromcanz e a) s = .next t₁ ∧ exec (.fromcanz f b) t₁ = .next t₂ ∧
        exec (.mulz p e f) t₂ = .next t₃ ∧ exec (.tocanprod q p) t₃ = .next t₄ ∧ t₄.readV q = m.readV q) ∧
    (e ≠ b → (a = b ∨ f ≠ e) → fitsH (s.readV a) = true → fitsH (s.readV b) = true →
      ∃ t₁ t₂ t₃ t₄, exec (.fromcanh e a) s = .next t₁ ∧ exec (.fromcanh f b) t₁ = .next t₂ ∧
        exec (.mulh p e f) t₂ = .next t₃ ∧ exec (.tocanprod q p) t₃ = .next t₄ ∧ t₄.readV q = m.readV q) ∧
    (a = b → ∃ t₁ t₂ t₃, exec (.fromcanp e a) s = .next t₁ ∧ exec (.mulp p e e) t₁ = .next t₂ ∧
      exec (.tocanprod q p) t₂ = .next t₃ ∧ t₃.readV q = m.readV q) ∧
    (a = b → ∃ t₁ t₂ t₃, exec (.fromcanz e a) s = .next t₁ ∧ exec (.mulz p e e) t₁ = .next t₂ ∧
      exec (.tocanprod q p) t₂ = .next t₃ ∧ t₃.readV q = m.readV q) ∧
    (a = b → fitsH (s.readV a) = true → ∃ t₁ t₂ t₃, exec (.fromcanh e a) s = .next t₁ ∧
      exec (.mulh p e e) t₁ = .next t₂ ∧ exec (.tocanprod q p) t₂ = .next t₃ ∧ t₃.readV q = m.readV q)

/-! ### Lane primitives (45_lane_primitives.md) -/

/-- R200, R201: LMULLO and LMULHI write the low and the high halves of the products of lane `imm` of `Va` with every
lane of `Vb`; together they are the exact product (R204, which the spec marks derived). -/
def Obligations.LaneMultiplyIsWidening : Prop :=
  ∀ (d a b : VReg) (imm : LaneIdx) (s : State), ∃ t u,
    exec (.lmullo d a b imm) s = .next t ∧ exec (.lmulhi d a b imm) s = .next u ∧ Ran [.v d] s t ∧ Ran [.v d] s u ∧
    (∀ j < 32, (lane (t.readV d) j).toNat = (lane (s.readV a) imm).toNat * (lane (s.readV b) j).toNat % 2 ^ 32) ∧
    (∀ j < 32, (lane (u.readV d) j).toNat = (lane (s.readV a) imm).toNat * (lane (s.readV b) j).toNat / 2 ^ 32) ∧
    ∀ j < 32, (lane (u.readV d) j).toNat * 2 ^ 32 + (lane (t.readV d) j).toNat =
      (lane (s.readV a) imm).toNat * (lane (s.readV b) j).toNat

/-- R202: LSHR moves every lane one position toward lane 0 and brings a zero into lane 31; as an integer it divides by
`2^32`. -/
def Obligations.LshrShiftsOneLane : Prop :=
  ∀ (d a : VReg) (s : State), ∃ t, exec (.lshr d a) s = .next t ∧ Ran [.v d] s t ∧
    (∀ j < 31, lane (t.readV d) j = lane (s.readV a) (j + 1)) ∧ lane (t.readV d) 31 = 0 ∧
    (t.readV d).toNat = (s.readV a).toNat / 2 ^ 32

/-- R203: LINS puts the low lane of `Va`, read first, into lane `imm` of `Vd` and keeps the other 31. -/
def Obligations.LinsInsertsLowLane : Prop :=
  ∀ (d a : VReg) (imm : LaneIdx) (s : State), ∃ t, exec (.lins d a imm) s = .next t ∧ Ran [.v d] s t ∧
    ∀ j < 32, lane (t.readV d) j = if j = imm.val then lane (s.readV a) 0 else lane (s.readV d) j
end

