-- ==== Sys2Proof/Laws/Operands.lean ====
section
/-! SUPPORT. The laws of limbs and lanes: what a sequence denotes, reading a lane or limb of a register built from lanes
or limbs, and the value of a number put into the low lanes or limbs of a register. -/
namespace Sys2Proof.Machine

/-! ### Sequences -/

theorem natOf_lt {w : Nat} (l : Nat → BitVec w) (n : Nat) : natOf l n < 2 ^ (w * n) := by
  induction n with
  | zero => simp [natOf]
  | succ n ih =>
    have h := (l n).isLt
    have : (l n).toNat * 2 ^ (w * n) + 2 ^ (w * n) ≤ 2 ^ w * 2 ^ (w * n) := by
      rw [← Nat.succ_mul]; exact Nat.mul_le_mul_right _ h
    rw [natOf, Nat.mul_succ, Nat.pow_add, Nat.mul_comm (2 ^ (w * n))]
    omega

theorem natOf_congr {w : Nat} {l m : Nat → BitVec w} {n : Nat} (h : ∀ k < n, l k = m k) : natOf l n = natOf m n := by
  induction n with
  | zero => rfl
  | succ n ih => rw [natOf, natOf, ih fun k hk => h k (by omega), h n (by omega)]

/-- The low `n` digits of a number denote it modulo `2^(w*n)` (R11). -/
theorem natOf_digitOf (w N n : Nat) : natOf (digitOf w N) n = N % 2 ^ (w * n) := by
  induction n with
  | zero => simp [natOf, Nat.mod_one]
  | succ n ih =>
    rw [natOf, ih, digitOf, BitVec.toNat_ofNat, Nat.mul_succ, Nat.pow_add, Nat.mod_mul, Nat.mul_comm (_ % 2 ^ w)]

/-- Digit `k` of what a sequence denotes is its element `k` (R11). -/
theorem digitOf_natOf {w : Nat} (l : Nat → BitVec w) {n k : Nat} (hk : k < n) : digitOf w (natOf l n) k = l k := by
  induction n with
  | zero => omega
  | succ n ih =>
    apply BitVec.eq_of_toNat_eq
    rw [digitOf, BitVec.toNat_ofNat, natOf]
    rcases Nat.lt_succ_iff_lt_or_eq.mp hk with h | rfl
    · have hd : 2 ^ (w * n) = 2 ^ (w * k) * (2 ^ w * 2 ^ (w * (n - k - 1))) := by
        rw [← Nat.pow_add, ← Nat.pow_add]; congr 1
        obtain ⟨m, rfl⟩ : ∃ m, n = k + 1 + m := ⟨n - k - 1, by omega⟩
        rw [show k + 1 + m - k - 1 = m by omega]; ring
      have hi := congrArg BitVec.toNat (ih h)
      rw [digitOf, BitVec.toNat_ofNat] at hi
      rw [hd, show (l n).toNat * (2 ^ (w * k) * (2 ^ w * 2 ^ (w * (n - k - 1))))
          = 2 ^ (w * k) * (2 ^ w * ((l n).toNat * 2 ^ (w * (n - k - 1)))) by ring,
        Nat.add_mul_div_left _ _ (Nat.two_pow_pos _), Nat.add_mul_mod_self_left, hi]
    · rw [Nat.add_mul_div_right _ _ (Nat.two_pow_pos _), Nat.div_eq_of_lt (natOf_lt l k), Nat.zero_add,
        Nat.mod_eq_of_lt (l k).isLt]

/-- Two sequences that denote the same number agree element by element. -/
theorem natOf_inj {w : Nat} {l m : Nat → BitVec w} {n : Nat} (h : natOf l n = natOf m n) {k : Nat} (hk : k < n) :
    l k = m k := by
  rw [← digitOf_natOf l hk, h, digitOf_natOf m hk]

/-- A sequence whose elements from `m` on are 0 denotes what its first `m` elements do. -/
theorem natOf_eq_of_zero {w : Nat} {l : Nat → BitVec w} {m n : Nat} (hmn : m ≤ n) (h : ∀ k, m ≤ k → k < n → l k = 0) :
    natOf l n = natOf l m := by
  induction n with
  | zero => rw [Nat.le_zero.mp hmn]
  | succ n ih =>
    rcases Nat.lt_or_ge n m with hn | hn
    · rw [Nat.le_antisymm hmn hn]
    · rw [natOf, ih hn fun k hk hkn => h k hk (by omega), h n hn (by omega)]; simp

/-! ### Lanes and limbs of a register -/

theorem lane_toNat (v : Wide) (k : Nat) : (lane v k).toNat = v.toNat / 2 ^ (32 * k) % 2 ^ 32 := by
  rw [lane, BitVec.extractLsb'_toNat, Nat.shiftRight_eq_div_pow]

theorem limb_toNat (v : Wide) (k : Nat) : (limb v k).toNat = v.toNat / 2 ^ (64 * k) % 2 ^ 64 := by
  rw [limb, BitVec.extractLsb'_toNat, Nat.shiftRight_eq_div_pow]

theorem lane_eq_digitOf (v : Wide) (k : Nat) : lane v k = digitOf 32 v.toNat k := by
  apply BitVec.eq_of_toNat_eq; rw [lane_toNat, digitOf, BitVec.toNat_ofNat]

theorem limb_eq_digitOf (v : Wide) (k : Nat) : limb v k = digitOf 64 v.toNat k := by
  apply BitVec.eq_of_toNat_eq; rw [limb_toNat, digitOf, BitVec.toNat_ofNat]

/-- `natd` is the register modulo `2^(32n)` (R22). -/
theorem natd_eq_mod (v : Wide) (n : Nat) : natd v n = v.toNat % 2 ^ (32 * n) := by
  rw [natd, natOf_congr fun k _ => lane_eq_digitOf v k, natOf_digitOf]

/-- `natq` is the register modulo `2^(64n)` (R22). -/
theorem natq_eq_mod (v : Wide) (n : Nat) : natq v n = v.toNat % 2 ^ (64 * n) := by
  rw [natq, natOf_congr fun k _ => limb_eq_digitOf v k, natOf_digitOf]

@[simp] theorem lane_zero (k : Nat) : lane 0 k = 0 := by simp [lane]

@[simp] theorem limb_zero (k : Nat) : limb 0 k = 0 := by simp [limb]

/-! ### Registers built from lanes and limbs -/

theorem ofLanes_toNat (d : Nat → Lane) : (ofLanes d).toNat = natOf d 32 := by
  rw [ofLanes, BitVec.toNat_ofNat, Nat.mod_eq_of_lt (natOf_lt d 32)]

theorem ofLimbs_toNat (q : Nat → Word) : (ofLimbs q).toNat = natOf q 16 := by
  rw [ofLimbs, BitVec.toNat_ofNat, Nat.mod_eq_of_lt (natOf_lt q 16)]

theorem lane_ofLanes (d : Nat → Lane) {k : Nat} (hk : k < 32) : lane (ofLanes d) k = d k := by
  rw [lane_eq_digitOf, ofLanes_toNat, digitOf_natOf d hk]

theorem limb_ofLimbs (q : Nat → Word) {k : Nat} (hk : k < 16) : limb (ofLimbs q) k = q k := by
  rw [limb_eq_digitOf, ofLimbs_toNat, digitOf_natOf q hk]

/-- Two registers with the same 32 lanes are the same 1024 bits. -/
theorem wide_ext_lanes {v w : Wide} (h : ∀ k < 32, lane v k = lane w k) : v = w := by
  apply BitVec.eq_of_toNat_eq
  have hv := natd_eq_mod v 32
  have hw := natd_eq_mod w 32
  rw [Nat.mod_eq_of_lt v.isLt] at hv
  rw [Nat.mod_eq_of_lt w.isLt] at hw
  rw [← hv, ← hw, natd, natd, natOf_congr h]

/-- Two registers with the same 16 limbs are the same 1024 bits. -/
theorem wide_ext_limbs {v w : Wide} (h : ∀ k < 16, limb v k = limb w k) : v = w := by
  apply BitVec.eq_of_toNat_eq
  have hv := natq_eq_mod v 16
  have hw := natq_eq_mod w 16
  rw [Nat.mod_eq_of_lt v.isLt] at hv
  rw [Nat.mod_eq_of_lt w.isLt] at hw
  rw [← hv, ← hw, natq, natq, natOf_congr h]

/-! ### A number put into the low lanes or limbs -/

theorem putLanes_toNat (N : Nat) {n : Nat} (hn : n ≤ 32) : (putLanes N n).toNat = N % 2 ^ (32 * n) := by
  rw [putLanes, ofLanes_toNat, natOf_eq_of_zero hn fun k hk _ => if_neg (by omega),
    natOf_congr fun k hk => if_pos hk, natOf_digitOf]

theorem putLimbs_toNat (N : Nat) {n : Nat} (hn : n ≤ 16) : (putLimbs N n).toNat = N % 2 ^ (64 * n) := by
  rw [putLimbs, ofLimbs_toNat, natOf_eq_of_zero hn fun k hk _ => if_neg (by omega),
    natOf_congr fun k hk => if_pos hk, natOf_digitOf]

theorem lane_putLanes (N n : Nat) {k : Nat} (hk : k < 32) :
    lane (putLanes N n) k = if k < n then digitOf 32 N k else 0 := by
  rw [putLanes, lane_ofLanes _ hk]

theorem limb_putLimbs (N n : Nat) {k : Nat} (hk : k < 16) :
    limb (putLimbs N n) k = if k < n then digitOf 64 N k else 0 := by
  rw [putLimbs, limb_ofLimbs _ hk]

/-- A number that fits is read back from the low lanes. -/
theorem natd_putLanes {N n : Nat} (hn : n ≤ 32) (hN : N < 2 ^ (32 * n)) : natd (putLanes N n) n = N := by
  rw [natd_eq_mod, putLanes_toNat N hn, Nat.mod_mod, Nat.mod_eq_of_lt hN]

/-- A number that fits is read back from the low limbs. -/
theorem natq_putLimbs {N n : Nat} (hn : n ≤ 16) (hN : N < 2 ^ (64 * n)) : natq (putLimbs N n) n = N := by
  rw [natq_eq_mod, putLimbs_toNat N hn, Nat.mod_mod, Nat.mod_eq_of_lt hN]

/-! ### Layout values are bounded -/

theorem valueS6_lt (v : Wide) : valueS6 v < 2 ^ 384 := natOf_lt _ 6

theorem valueP_lt (v : Wide) : valueP v < 2 ^ 384 := natOf_lt _ 12

theorem valueZ_lt (v : Wide) : valueZ v < 2 ^ 384 := natOf_lt _ 12

theorem valueH_lt (v : Wide) : valueH v < 2 ^ 384 := natOf_lt _ 12

theorem valueL_lt (v : Wide) : valueL v < 2 ^ 768 := natOf_lt _ 24

/-- As integers, the element layouts S6, P and Z are the low 384 bits and layout L the low 768 (R22). -/
theorem valueS6_eq_mod (v : Wide) : valueS6 v = v.toNat % 2 ^ 384 := natq_eq_mod v 6

theorem valueP_eq_mod (v : Wide) : valueP v = v.toNat % 2 ^ 384 := natd_eq_mod v 12

theorem valueZ_eq_mod (v : Wide) : valueZ v = v.toNat % 2 ^ 384 := natd_eq_mod v 12

theorem valueL_eq_mod (v : Wide) : valueL v = v.toNat % 2 ^ 768 := natd_eq_mod v 24

/-- The product of two elements is below `2^768` (R120, R140). -/
theorem product_lt {A B : Nat} (hA : A < 2 ^ 384) (hB : B < 2 ^ 384) : A * B < 2 ^ 768 := by
  rw [show (768 : Nat) = 384 + 384 from rfl, Nat.pow_add]
  exact Nat.mul_lt_mul'' hA hB

/-! ### Products and elements as they are written (R33, R37, R180, R181) -/

theorem productS12_toNat (N : Nat) : (productS12 N).toNat = N % 2 ^ 768 := putLimbs_toNat N (n := 12) (by decide)

theorem productL_toNat (N : Nat) : (productL N).toNat = N % 2 ^ 768 := putLanes_toNat N (n := 24) (by decide)

theorem elementS6_toNat (N : Nat) : (elementS6 N).toNat = N % 2 ^ 384 := putLimbs_toNat N (n := 6) (by decide)

theorem elementPacked_toNat (N : Nat) : (elementPacked N).toNat = N % 2 ^ 384 := putLanes_toNat N (n := 12) (by decide)

theorem natq_productS12 {N : Nat} (h : N < 2 ^ 768) : natq (productS12 N) 12 = N :=
  natq_putLimbs (n := 12) (by decide) h

theorem natd_productL {N : Nat} (h : N < 2 ^ 768) : natd (productL N) 24 = N := natd_putLanes (n := 24) (by decide) h

theorem natq_elementS6 {N : Nat} (h : N < 2 ^ 384) : natq (elementS6 N) 6 = N := natq_putLimbs (n := 6) (by decide) h

theorem natd_elementPacked {N : Nat} (h : N < 2 ^ 384) : natd (elementPacked N) 12 = N :=
  natd_putLanes (n := 12) (by decide) h

theorem limb_productS12_high (N : Nat) {k : Nat} (h1 : 12 ≤ k) (h2 : k < 16) : limb (productS12 N) k = 0 :=
  (limb_putLimbs N 12 h2).trans (if_neg (Nat.not_lt.mpr h1))

theorem lane_productL_high (N : Nat) {k : Nat} (h1 : 24 ≤ k) (h2 : k < 32) : lane (productL N) k = 0 :=
  (lane_putLanes N 24 h2).trans (if_neg (Nat.not_lt.mpr h1))

theorem limb_elementS6_high (N : Nat) {k : Nat} (h1 : 6 ≤ k) (h2 : k < 16) : limb (elementS6 N) k = 0 :=
  (limb_putLimbs N 6 h2).trans (if_neg (Nat.not_lt.mpr h1))

theorem lane_elementPacked_high (N : Nat) {k : Nat} (h1 : 12 ≤ k) (h2 : k < 32) : lane (elementPacked N) k = 0 :=
  (lane_putLanes N 12 h2).trans (if_neg (Nat.not_lt.mpr h1))

/-- Lane `j` of the half-packed form of an S6 value: half `j / 2` in an even lane of a used slot, else zero (R183). -/
theorem lane_elementH (v : Wide) {j : Nat} (h : j < 32) :
    lane (elementH v) j = if j % 2 = 0 ∧ j < 24 then lane v (j / 2) else 0 :=
  lane_ofLanes _ h

/-! ### Validity, lane by lane -/

theorem validP_iff (v : Wide) : validP v = true ↔ ∀ k, 12 ≤ k → k < 16 → lane v k = 0 := by
  simp only [validP, List.all_eq_true, List.mem_range, beq_iff_eq, Config.nPadLanes, Config.nUsedLanes]
  exact ⟨fun h k h1 h2 => by simpa [Nat.add_sub_cancel' h1] using h (k - 12) (by omega), fun h k hk => h _ (by omega) (by omega)⟩

theorem validZ_iff (v : Wide) : validZ v = true ↔ ∀ k, 12 ≤ k → k < 16 → lane v k = 0 := validP_iff v

theorem validH_iff (v : Wide) : validH v = true ↔
    (∀ k < 12, (lane v (2 * k)).toNat < 2 ^ 24 ∧ lane v (2 * k + 1) = 0) ∧ ∀ k, 12 ≤ k → k < 16 → limb v k = 0 := by
  simp only [validH, validSlotH, Bool.and_eq_true, List.all_eq_true, List.mem_range, beq_iff_eq, decide_eq_true_eq,
    Config.nPadLanes, Config.nUsedLanes, Config.hpDigitBits]
  exact and_congr_right fun _ =>
    ⟨fun h k h1 h2 => by simpa [Nat.add_sub_cancel' h1] using h (k - 12) (by omega),
      fun h k hk => h _ (by omega) (by omega)⟩

/-- Digits below `2^24` denote less than a sequence of full lanes, by eight bits. -/
theorem natOf_digits_lt {l : Nat → Lane} {n : Nat} (h : ∀ k < n, (l k).toNat < 2 ^ 24) :
    natOf l n * 2 ^ 8 < 2 ^ (32 * n) := by
  induction n with
  | zero => simp [natOf]
  | succ n ih =>
    have hn := ih fun k hk => h k (by omega)
    have hd : (l n).toNat * 2 ^ (32 * n) ≤ 16777215 * 2 ^ (32 * n) :=
      Nat.mul_le_mul_right _ (by have := h n (by omega); omega)
    have hs : natOf l (n + 1) = natOf l n + (l n).toNat * 2 ^ (32 * n) := rfl
    have hp : 2 ^ (32 * (n + 1)) = 2 ^ (32 * n) * 4294967296 := by rw [Nat.mul_succ, Nat.pow_add]
    rw [hs, hp]
    linarith

/-- A valid H register denotes an integer below `2^376` (R36). -/
theorem valueH_lt_of_valid {v : Wide} (h : validH v = true) : valueH v < 2 ^ 376 := by
  have := natOf_digits_lt (l := fun k => lane v (2 * k)) (n := 12) fun k hk => (((validH_iff v).mp h).1 k hk).1
  have hv : valueH v * 2 ^ 8 < 2 ^ 376 * 2 ^ 8 := by rw [← Nat.pow_add]; exact this
  exact Nat.lt_of_mul_lt_mul_right hv

theorem fitsH_iff (v : Wide) : fitsH v = true ↔ ∀ m < 12, (lane v m).toNat < 2 ^ 24 := by
  simp only [fitsH, List.all_eq_true, List.mem_range, decide_eq_true_eq, Config.nUsedLanes, Config.hpDigitBits]

end Sys2Proof.Machine
end

