-- ==== Sys2Proof/Laws/Datapath.lean ====
section
/-! SUPPORT. The laws of the reference algorithms and datapaths: the invariant of the rounds and the bound of a slot
(42_vector256.md R143, R147; 43_vector512.md R162), the invariants of the Comba form and of operand scanning
(41_scalar_mul.md R122, R126). -/
namespace Sys2Proof.Machine

/-! ### Sequences as sums, and lists as sequences -/

theorem natOf_eq_sum {w : Nat} (l : Nat → BitVec w) (n : Nat) :
    natOf l n = ∑ k ∈ Finset.range n, (l k).toNat * 2 ^ (w * k) := by
  induction n with
  | zero => rfl
  | succ n ih => rw [natOf, ih, Finset.sum_range_succ]

theorem natOf_mul_lt (a b : Nat → Lane) {n m : Nat} (h : 32 * n + 32 * n = m) : natOf a n * natOf b n < 2 ^ m := by
  rw [← h, Nat.pow_add]
  exact Nat.mul_lt_mul'' (natOf_lt a n) (natOf_lt b n)

theorem getD_map_range (f : Nat → Nat) {n j : Nat} (h : j < n) : ((List.range n).map f).getD j 0 = f j := by
  simp [List.getD, h]

theorem getD_replicate (n j : Nat) : (List.replicate n 0).getD j 0 = 0 := by
  simp only [List.getD, List.getElem?_replicate]
  split <;> rfl

theorem getD_append_left {w : Nat} (l : List (BitVec w)) (x : BitVec w) {k : Nat} (h : k < l.length) :
    (l ++ [x]).getD k 0 = l.getD k 0 := by
  simp only [List.getD]
  rw [List.getElem?_append_left h]

theorem getD_append_length {w : Nat} (l : List (BitVec w)) (x : BitVec w) {n : Nat} (h : l.length = n) :
    (l ++ [x]).getD n 0 = x := by
  subst h
  simp [List.getD]

theorem getD_set {w : Nat} (r : List (BitVec w)) (p k : Nat) (x : BitVec w) (hp : p < r.length) :
    (r.set p x).getD k 0 = if k = p then x else r.getD k 0 := by
  simp only [List.getD, List.getElem?_set, hp, if_true]
  by_cases h : p = k
  · simp [h]
  · simp [h, Ne.symm h]

/-- Replacing one entry of a sequence moves the integer by the difference. -/
theorem natOf_set {w : Nat} (r : List (BitVec w)) {p n : Nat} (x : BitVec w) (hp : p < r.length) (hn : p < n) :
    natOf (fun k => (r.set p x).getD k 0) n + (r.getD p 0).toNat * 2 ^ (w * p) =
      natOf (fun k => r.getD k 0) n + x.toNat * 2 ^ (w * p) := by
  have hmem : p ∈ Finset.range n := Finset.mem_range.mpr hn
  have hrest : ∑ k ∈ (Finset.range n).erase p, ((r.set p x).getD k 0).toNat * 2 ^ (w * k) =
      ∑ k ∈ (Finset.range n).erase p, (r.getD k 0).toNat * 2 ^ (w * k) :=
    Finset.sum_congr rfl fun k hk => by rw [getD_set r p k x hp, if_neg (Finset.ne_of_mem_erase hk)]
  rw [natOf_eq_sum, natOf_eq_sum, ← Finset.sum_erase_add _ _ hmem,
    ← Finset.sum_erase_add (Finset.range n) (fun k => (r.getD k 0).toNat * 2 ^ (w * k)) hmem, hrest,
    getD_set r p p x hp, if_pos rfl]
  ring

/-! ### Rounds of the vector datapaths -/

/-- The integer seventeen slots hold. -/
def slotsValue (S : List Nat) : Nat := ∑ j ∈ Finset.range 17, S.getD j 0 * 2 ^ (32 * j)

/-- The integer a row adds. -/
def rowValue (r : Nat → Nat) : Nat := ∑ j ∈ Finset.range 17, r j * 2 ^ (32 * j)

theorem rowValue_zero : rowValue (fun _ => 0) = 0 := by simp [rowValue]

theorem slotsValue_addRow (S : List Nat) (r : Nat → Nat) : slotsValue (addRow S r) = slotsValue S + rowValue r := by
  unfold slotsValue rowValue addRow
  rw [← Finset.sum_add_distrib]
  exact Finset.sum_congr rfl fun j hj => by rw [getD_map_range _ (Finset.mem_range.mp hj), Nat.add_mul]

/-- Emitting the low lane and shifting loses nothing. -/
theorem shiftSlots_value (S : List Nat) :
    S.getD 0 0 % 2 ^ 32 + 2 ^ 32 * slotsValue (shiftSlots S) = slotsValue S := by
  have h : slotsValue (shiftSlots S) =
      (∑ j ∈ Finset.range 16, S.getD (j + 1) 0 * 2 ^ (32 * j)) + S.getD 0 0 / 2 ^ 32 := by
    unfold slotsValue shiftSlots
    rw [Finset.sum_congr rfl fun j hj => by rw [getD_map_range _ (Finset.mem_range.mp hj), Nat.add_mul],
      Finset.sum_add_distrib]
    refine congrArg₂ (· + ·) ?_ ?_
    · rw [Finset.sum_range_succ, if_neg (by decide), Nat.zero_mul, Nat.add_zero]
      exact Finset.sum_congr rfl fun j hj => by rw [if_pos (Finset.mem_range.mp hj)]
    · rw [Finset.sum_eq_single 0 (fun j _ hj => by rw [if_neg hj, Nat.zero_mul])
        (fun h => absurd (Finset.mem_range.mpr (by decide)) h)]
      simp
  have e : ∑ k ∈ Finset.range 16, S.getD (k + 1) 0 * 2 ^ (32 * (k + 1)) =
      2 ^ 32 * ∑ j ∈ Finset.range 16, S.getD (j + 1) 0 * 2 ^ (32 * j) := by
    rw [Finset.mul_sum]
    exact Finset.sum_congr rfl fun j _ => by rw [Nat.mul_succ, Nat.pow_add]; ring
  rw [h]
  unfold slotsValue
  rw [Finset.sum_range_succ' _ 16, e]
  have := Nat.div_add_mod (S.getD 0 0) (2 ^ 32)
  generalize ∑ j ∈ Finset.range 16, S.getD (j + 1) 0 * 2 ^ (32 * j) = X
  simp only [Nat.mul_zero, Nat.pow_zero, Nat.mul_one]
  linarith

theorem rounds_length (row : Nat → Nat → Nat) (n : Nat) : (rounds row n).2.length = n := by
  induction n with
  | zero => rfl
  | succ n ih => simp [rounds, ih]

/-- The invariant of the rounds (R143): the lanes emitted and the slots hold the sum of the rows added. -/
theorem rounds_value (row : Nat → Nat → Nat) (n : Nat) :
    natOf (fun k => (rounds row n).2.getD k 0) n + 2 ^ (32 * n) * slotsValue (rounds row n).1 =
      ∑ i ∈ Finset.range n, rowValue (rowOf row i) * 2 ^ (32 * i) := by
  induction n with
  | zero =>
    have h0 : slotsValue (List.replicate 17 0) = 0 :=
      Finset.sum_eq_zero fun j _ => by rw [getD_replicate, Nat.zero_mul]
    rw [show (rounds row 0).1 = List.replicate 17 0 from rfl, h0]
    simp [natOf]
  | succ n ih =>
    have hl := rounds_length row n
    have hs := shiftSlots_value (addRow (rounds row n).1 (rowOf row n))
    have h1 : (rounds row (n + 1)).1 = shiftSlots (addRow (rounds row n).1 (rowOf row n)) := rfl
    have h2 : (rounds row (n + 1)).2 =
        (rounds row n).2 ++ [BitVec.ofNat 32 ((addRow (rounds row n).1 (rowOf row n)).getD 0 0)] := rfl
    rw [slotsValue_addRow] at hs
    rw [Finset.sum_range_succ, ← ih, h1, h2, natOf,
      natOf_congr fun k hk => getD_append_left _ _ (by rw [hl]; exact hk), getD_append_length _ _ hl,
      BitVec.toNat_ofNat, Nat.mul_succ, Nat.pow_add]
    generalize slotsValue (shiftSlots (addRow (rounds row n).1 (rowOf row n))) = Y at *
    generalize (addRow (rounds row n).1 (rowOf row n)).getD 0 0 % 2 ^ 32 = Z at *
    generalize 2 ^ (32 * n) = P
    calc _ = natOf (fun k => (rounds row n).2.getD k 0) n + P * (Z + 2 ^ 32 * Y) := by ring
      _ = _ := by rw [hs]; ring

/-- What the datapath emits, when the sum of the rows fits 1024 bits: the slots are empty after the flush. -/
theorem emitted_value (row : Nat → Nat → Nat)
    (h : ∑ i ∈ Finset.range 16, rowValue (row i) * 2 ^ (32 * i) < 2 ^ 1024) :
    natd (emitted row) 32 = ∑ i ∈ Finset.range 16, rowValue (row i) * 2 ^ (32 * i) := by
  have hv := rounds_value row 32
  have hlow : ∑ i ∈ Finset.range 16, rowValue (rowOf row i) * 2 ^ (32 * i) =
      ∑ i ∈ Finset.range 16, rowValue (row i) * 2 ^ (32 * i) :=
    Finset.sum_congr rfl fun i hi => by simp only [rowOf]; rw [if_pos (Finset.mem_range.mp hi)]
  have hr : ∑ i ∈ Finset.range 32, rowValue (rowOf row i) * 2 ^ (32 * i) =
      ∑ i ∈ Finset.range 16, rowValue (row i) * 2 ^ (32 * i) := by
    rw [show 32 = 16 + 16 from rfl, Finset.sum_range_add, hlow, Nat.add_eq_left]
    exact Finset.sum_eq_zero fun i _ => by
      simp only [rowOf]
      rw [if_neg (by omega), rowValue_zero, Nat.zero_mul]
  rw [hr] at hv
  have hz : slotsValue (rounds row 32).1 = 0 := by
    by_contra hne
    have : 2 ^ (32 * 32) * 1 ≤ 2 ^ (32 * 32) * slotsValue (rounds row 32).1 :=
      Nat.mul_le_mul_left _ (Nat.one_le_iff_ne_zero.mpr hne)
    rw [show (32 * 32 : Nat) = 1024 from rfl] at *
    omega
  rw [hz, Nat.mul_zero, Nat.add_zero] at hv
  rw [← hv]
  exact natOf_congr fun k hk => lane_ofLanes _ hk

/-- Slot j after n rounds, by a bound `M` on the rows and `C` on the carry. -/
theorem rounds_slot_le {row : Nat → Nat → Nat} {M C : Nat} (hrow : ∀ i < 16, ∀ j, row i j ≤ M)
    (hC : (17 * M + C) / 2 ^ 32 ≤ C) (n j : Nat) :
    (rounds row n).1.getD j 0 ≤ (16 - j) * M + if j = 0 then C else 0 := by
  induction n generalizing j with
  | zero => exact (getD_replicate 17 j).trans_le (Nat.zero_le _)
  | succ n ih =>
    have hro : ∀ j, rowOf row n j ≤ M := fun j => by
      unfold rowOf
      split
      · exact hrow n (by assumption) j
      · exact Nat.zero_le _
    have hadd : ∀ j, (addRow (rounds row n).1 (rowOf row n)).getD j 0 ≤ (17 - j) * M + if j = 0 then C else 0 := by
      intro j
      rcases Nat.lt_or_ge j 17 with hj | hj
      · unfold addRow
        rw [getD_map_range _ hj, show 17 - j = (16 - j) + 1 by omega, Nat.succ_mul]
        have := ih j
        have := hro j
        omega
      · rw [List.getD_eq_default _ _ (by simp [addRow]; exact hj)]
        exact Nat.zero_le _
    have h1 : (rounds row (n + 1)).1 = shiftSlots (addRow (rounds row n).1 (rowOf row n)) := rfl
    rw [h1]
    generalize addRow (rounds row n).1 (rowOf row n) = T at *
    rcases Nat.lt_or_ge j 17 with hj | hj
    · unfold shiftSlots
      rw [getD_map_range _ hj]
      refine Nat.add_le_add ?_ ?_
      · split
        · have := hadd (j + 1)
          rw [if_neg (by omega), show 17 - (j + 1) = 16 - j by omega] at this
          exact this
        · exact Nat.zero_le _
      · split
        · have := hadd 0
          rw [if_pos rfl] at this
          exact le_trans (Nat.div_le_div_right this) hC
        · exact Nat.zero_le _
    · rw [List.getD_eq_default _ _ (by simp [shiftSlots]; exact hj)]
      exact Nat.zero_le _

/-- No slot leaves the bound that a bound on the rows gives. -/
theorem slotsInRound_le {row : Nat → Nat → Nat} {M C : Nat} (hrow : ∀ i < 16, ∀ j, row i j ≤ M)
    (hC : (17 * M + C) / 2 ^ 32 ≤ C) (n j : Nat) : (slotsInRound row n).getD j 0 ≤ 17 * M + C := by
  rcases Nat.lt_or_ge j 17 with hj | hj
  · unfold slotsInRound addRow
    rw [getD_map_range _ hj]
    have h1 := rounds_slot_le hrow hC n j
    have h2 : rowOf row n j ≤ M := by
      unfold rowOf
      split
      · exact hrow n (by assumption) j
      · exact Nat.zero_le _
    have h3 : (16 - j) * M ≤ 16 * M := Nat.mul_le_mul_right _ (by omega)
    split at h1 <;> omega
  · rw [List.getD_eq_default _ _ (by simp [slotsInRound, addRow]; exact hj)]
    exact Nat.zero_le _

/-! ### Rows -/

/-- The two halves of a lane product (R204). -/
theorem mulLow_add_mulHigh (x y : Lane) : (mulLow x y).toNat + 2 ^ 32 * (mulHigh x y).toNat = x.toNat * y.toNat := by
  have h : x.toNat * y.toNat / 2 ^ 32 < 2 ^ 32 :=
    Nat.div_lt_of_lt_mul (lt_of_lt_of_le (Nat.mul_lt_mul'' x.isLt y.isLt) (by rw [← Nat.pow_add]))
  rw [mulLow, mulHigh, BitVec.toNat_ofNat, BitVec.toNat_ofNat, Nat.mod_eq_of_lt h, Nat.mod_add_div]

theorem sum_below (f g : Nat → Nat) (n : Nat) :
    ∑ j ∈ Finset.range (n + 1), (if j < n then f j else 0) * g j = ∑ j ∈ Finset.range n, f j * g j := by
  rw [Finset.sum_range_succ, if_neg (Nat.lt_irrefl n), Nat.zero_mul, Nat.add_zero]
  exact Finset.sum_congr rfl fun j hj => by rw [if_pos (Finset.mem_range.mp hj)]

theorem rowValue_rowZ (a b : Wide) (i : Nat) : rowValue (rowZ a b i) = (lane a i).toNat * natd b 16 := by
  have h : rowValue (rowZ a b i) = ∑ j ∈ Finset.range 16, (lane a i).toNat * (lane b j).toNat * 2 ^ (32 * j) :=
    sum_below (fun j => (lane a i).toNat * (lane b j).toNat) (fun j => 2 ^ (32 * j)) 16
  rw [h, natd, natOf_eq_sum, Finset.mul_sum]
  exact Finset.sum_congr rfl fun j _ => Nat.mul_assoc _ _ _

theorem rowValue_rowH (a b : Wide) (i : Nat) :
    rowValue (rowH a b i) = (lane a (2 * i)).toNat * natOf (fun j => lane b (2 * j)) 16 := by
  have h : rowValue (rowH a b i) =
      ∑ j ∈ Finset.range 16, (lane a (2 * i)).toNat * (lane b (2 * j)).toNat * 2 ^ (32 * j) :=
    sum_below (fun j => (lane a (2 * i)).toNat * (lane b (2 * j)).toNat) (fun j => 2 ^ (32 * j)) 16
  rw [h, natOf_eq_sum, Finset.mul_sum]
  exact Finset.sum_congr rfl fun j _ => Nat.mul_assoc _ _ _

theorem rowValue_rowP (a b : Wide) (i : Nat) : rowValue (rowP a b i) = (lane a i).toNat * natd b 16 := by
  have h : rowValue (rowP a b i) =
      (∑ j ∈ Finset.range 16, (mulLow (lane a i) (lane b j)).toNat * 2 ^ (32 * j)) +
        ∑ j ∈ Finset.range 16, (mulHigh (lane a i) (lane b j)).toNat * 2 ^ (32 * (j + 1)) := by
    unfold rowValue rowP
    rw [Finset.sum_congr rfl fun j _ => Nat.add_mul _ _ _, Finset.sum_add_distrib]
    refine congrArg₂ (· + ·) ?_ ?_
    · exact sum_below (fun j => (mulLow (lane a i) (lane b j)).toNat) (fun j => 2 ^ (32 * j)) 16
    · rw [Finset.sum_range_succ', if_neg (by decide), Nat.zero_mul, Nat.add_zero]
      exact Finset.sum_congr rfl fun j _ => by rw [if_pos (by omega), Nat.add_sub_cancel]
  rw [h, ← Finset.sum_add_distrib, natd, natOf_eq_sum, Finset.mul_sum]
  refine Finset.sum_congr rfl fun j _ => ?_
  rw [← Nat.mul_assoc, ← mulLow_add_mulHigh, Nat.mul_succ, Nat.pow_add]
  ring

/-- The rows of the broadcast lanes add up to the product. -/
theorem sum_rows (a : Nat → Lane) (B : Nat) :
    ∑ i ∈ Finset.range 16, (a i).toNat * B * 2 ^ (32 * i) = natOf a 16 * B := by
  rw [natOf_eq_sum, Finset.sum_mul]
  exact Finset.sum_congr rfl fun i _ => by ring

theorem rowP_le (a b : Wide) (i j : Nat) : rowP a b i j ≤ 2 * (2 ^ 32 - 1) := by
  unfold rowP
  have h1 := Nat.le_pred_of_lt (mulLow (lane a i) (lane b j)).isLt
  have h2 := Nat.le_pred_of_lt (mulHigh (lane a i) (lane b (j - 1))).isLt
  split <;> split <;> omega

theorem rowZ_le (a b : Wide) (i j : Nat) : rowZ a b i j ≤ (2 ^ 32 - 1) * (2 ^ 32 - 1) := by
  unfold rowZ
  split
  · exact Nat.mul_le_mul (Nat.le_pred_of_lt (lane a i).isLt) (Nat.le_pred_of_lt (lane b j).isLt)
  · exact Nat.zero_le _

/-- A zero padding slot has a zero even lane. -/
theorem lane_of_limb_zero {v : Wide} {k : Nat} (h : limb v k = 0) : lane v (2 * k) = 0 := by
  have := congrArg BitVec.toNat h
  rw [limb_toNat, show (0 : Word).toNat = 0 from rfl] at this
  apply BitVec.eq_of_toNat_eq
  rw [lane_toNat, show 32 * (2 * k) = 64 * k by ring, show (0 : Lane).toNat = 0 from rfl]
  omega

theorem digit_le_of_validH {v : Wide} (h : validH v = true) {k : Nat} (hk : k < 16) :
    (lane v (2 * k)).toNat ≤ 2 ^ 24 - 1 := by
  obtain ⟨h1, h2⟩ := (validH_iff v).mp h
  rcases Nat.lt_or_ge k 12 with hk' | hk'
  · exact Nat.le_pred_of_lt (h1 k hk').1
  · rw [lane_of_limb_zero (h2 k hk' hk)]
    exact Nat.zero_le _

theorem rowH_le {a b : Wide} (ha : validH a = true) (hb : validH b = true) {i : Nat} (hi : i < 16) (j : Nat) :
    rowH a b i j ≤ (2 ^ 24 - 1) * (2 ^ 24 - 1) := by
  unfold rowH
  split
  · exact Nat.mul_le_mul (digit_le_of_validH ha hi) (digit_le_of_validH hb (by assumption))
  · exact Nat.zero_le _

/-- For a valid layout P (or Z) register the sixteen lanes denote the value of the twelve. -/
theorem natd16_of_validP {v : Wide} (h : validP v = true) : natd v 16 = valueP v :=
  natOf_eq_of_zero (by decide) fun k h1 h2 => (validP_iff v).mp h k h1 h2

/-- For a valid layout H register the sixteen digits denote the value of the twelve. -/
theorem natOf16_of_validH {v : Wide} (h : validH v = true) : natOf (fun k => lane v (2 * k)) 16 = valueH v :=
  natOf_eq_of_zero (by decide) fun k h1 h2 => lane_of_limb_zero (((validH_iff v).mp h).2 k h1 h2)

/-! ### Comba form -/

theorem combaColumns_length (col : Nat → Nat) (n : Nat) : (combaColumns col n).2.length = n := by
  induction n with
  | zero => rfl
  | succ n ih => simp [combaColumns, ih]

/-- The invariant of the Comba form: the limbs delivered and the accumulator hold the sum of the columns. -/
theorem combaColumns_value (col : Nat → Nat) (n : Nat) :
    natOf (fun k => (combaColumns col n).2.getD k 0) n + 2 ^ (64 * n) * (combaColumns col n).1 =
      ∑ k ∈ Finset.range n, col k * 2 ^ (64 * k) := by
  induction n with
  | zero => simp [combaColumns, natOf]
  | succ n ih =>
    have hl := combaColumns_length col n
    have h1 : (combaColumns col (n + 1)).1 = ((combaColumns col n).1 + col n) / 2 ^ 64 := rfl
    have h2 : (combaColumns col (n + 1)).2 =
        (combaColumns col n).2 ++ [BitVec.ofNat 64 ((combaColumns col n).1 + col n)] := rfl
    have hs := Nat.mod_add_div ((combaColumns col n).1 + col n) (2 ^ 64)
    rw [Finset.sum_range_succ, ← ih, h1, h2, natOf,
      natOf_congr fun k hk => getD_append_left _ _ (by rw [hl]; exact hk), getD_append_length _ _ hl,
      BitVec.toNat_ofNat, Nat.mul_succ, Nat.pow_add]
    generalize (combaColumns col n).1 = A at *
    generalize natOf (fun k => (combaColumns col n).2.getD k 0) n = N
    generalize 2 ^ (64 * n) = P
    calc _ = N + P * ((A + col n) % 2 ^ 64 + 2 ^ 64 * ((A + col n) / 2 ^ 64)) := by ring
      _ = _ := by rw [hs]; ring

/-- The Comba form delivers the sum of its eleven columns, when it fits twelve limbs. -/
theorem comba_toNat (col : Nat → Nat) (h : ∑ k ∈ Finset.range 11, col k * 2 ^ (64 * k) < 2 ^ 768) :
    (comba col).toNat = ∑ k ∈ Finset.range 11, col k * 2 ^ (64 * k) := by
  have hl := combaColumns_length col 11
  have hv := combaColumns_value col 11
  have hacc : (combaColumns col 11).1 < 2 ^ 64 := by
    rw [← hv] at h
    have h1 : 2 ^ (64 * 11) * (combaColumns col 11).1 < 2 ^ (64 * 11) * 2 ^ 64 :=
      lt_of_le_of_lt (Nat.le_add_left _ _) (lt_of_lt_of_eq h (by rw [← Nat.pow_add]))
    exact Nat.lt_of_mul_lt_mul_left h1
  rw [comba, ofLimbs_toNat, natOf_eq_of_zero (m := 12) (by decide) fun k h1 _ => by
    rw [List.getD_eq_default _ _ (by simp [hl]; exact h1)], natOf,
    natOf_congr fun k hk => getD_append_left _ _ (by rw [hl]; exact hk), getD_append_length _ _ hl, BitVec.toNat_ofNat,
    Nat.mod_eq_of_lt hacc, ← hv, Nat.mul_comm]

theorem combaColumn_le (a b : Wide) (k : Nat) : combaColumn a b k ≤ 6 * ((2 ^ 64 - 1) * (2 ^ 64 - 1)) := by
  have h : ∀ i, (if i ≤ k ∧ k ≤ i + 5 then (limb a i).toNat * (limb b (k - i)).toNat else 0) ≤
      (2 ^ 64 - 1) * (2 ^ 64 - 1) := by
    intro i
    split
    · exact Nat.mul_le_mul (Nat.le_pred_of_lt (limb a i).isLt) (Nat.le_pred_of_lt (limb b (k - i)).isLt)
    · exact Nat.zero_le _
  have h2 := List.sum_le_card_nsmul
    ((List.range 6).map fun i => if i ≤ k ∧ k ≤ i + 5 then (limb a i).toNat * (limb b (k - i)).toNat else 0)
    ((2 ^ 64 - 1) * (2 ^ 64 - 1)) (by
      intro x hx
      obtain ⟨i, -, rfl⟩ := List.mem_map.mp hx
      exact h i)
  unfold combaColumn
  simpa using h2

/-- Column by column, the product of two sums of six terms in powers of `β`. -/
theorem columns_eq_product (x y : Nat → Nat) (β : Nat) :
    ∑ k ∈ Finset.range 11, ((List.range 6).map fun i => if i ≤ k ∧ k ≤ i + 5 then x i * y (k - i) else 0).sum * β ^ k =
      (∑ i ∈ Finset.range 6, x i * β ^ i) * ∑ j ∈ Finset.range 6, y j * β ^ j := by
  simp only [Finset.sum_range_succ, Finset.sum_range_zero, List.range, List.range.loop, List.map, List.sum_cons,
    List.sum_nil, Nat.reduceLeDiff, Nat.reduceAdd, Nat.reduceSub, and_true, and_self, if_true, if_false, and_false]
  ring

/-- A column of the square is the column of the product with itself: each cross-term twice (R126). -/
theorem squareColumn_eq (a : Wide) {k : Nat} (hk : k < 11) : squareColumn a k = combaColumn a a k := by
  interval_cases k <;> simp [squareColumn, combaColumn, List.range, List.range.loop] <;> ring

/-! ### Operand scanning -/

/-- The two results of the MAC primitive (R101). -/
theorem macLow_add_macHigh (a b c k : Word) :
    (macLow a b c k).toNat + 2 ^ 64 * (macHigh a b c k).toNat = macSum a b c k := by
  have hb : b.toNat * c.toNat ≤ (2 ^ 64 - 1) * (2 ^ 64 - 1) :=
    Nat.mul_le_mul (Nat.le_pred_of_lt b.isLt) (Nat.le_pred_of_lt c.isLt)
  have h : macSum a b c k / 2 ^ 64 < 2 ^ 64 := by
    refine Nat.div_lt_of_lt_mul ?_
    have := a.isLt
    have := k.isLt
    unfold macSum
    omega
  rw [macLow, macHigh, BitVec.toNat_ofNat, BitVec.toNat_ofNat, Nat.mod_eq_of_lt h, Nat.mod_add_div]

/-- The invariant of the columns of one row of operand scanning (R122 (a)). -/
theorem scanColumns_spec (x : Word) (b : Wide) (i : Nat) {r : List Word} (hr : r.length = 12) (n : Nat)
    (hn : i + n ≤ 12) :
    (scanColumns x b i r n).1.length = 12 ∧
      natOf (fun k => (scanColumns x b i r n).1.getD k 0) 12 + (scanColumns x b i r n).2.toNat * 2 ^ (64 * (i + n)) =
        natOf (fun k => r.getD k 0) 12 + x.toNat * natOf (limb b) n * 2 ^ (64 * i) ∧
      ∀ k, i + n ≤ k → (scanColumns x b i r n).1.getD k 0 = r.getD k 0 := by
  induction n with
  | zero => exact ⟨hr, by simp [scanColumns, natOf], fun _ _ => rfl⟩
  | succ n ih =>
    obtain ⟨h1, h2, h3⟩ := ih (by omega)
    have e1 : (scanColumns x b i r (n + 1)).1 = (scanColumns x b i r n).1.set (i + n)
        (macLow ((scanColumns x b i r n).1.getD (i + n) 0) x (limb b n) (scanColumns x b i r n).2) := rfl
    have e2 : (scanColumns x b i r (n + 1)).2 =
        macHigh ((scanColumns x b i r n).1.getD (i + n) 0) x (limb b n) (scanColumns x b i r n).2 := rfl
    rw [e1, e2]
    generalize (scanColumns x b i r n).1 = r' at *
    generalize (scanColumns x b i r n).2 = c at *
    refine ⟨by rw [List.length_set, h1], ?_, fun k hk => ?_⟩
    · have hs := natOf_set (n := 12) r' (macLow (r'.getD (i + n) 0) x (limb b n) c) (p := i + n) (by omega) (by omega)
      have hm := macLow_add_macHigh (r'.getD (i + n) 0) x (limb b n) c
      have hsum : natOf (limb b) (n + 1) = natOf (limb b) n + (limb b n).toNat * 2 ^ (64 * n) := rfl
      have hpow : 2 ^ (64 * (i + (n + 1))) = 2 ^ (64 * i) * 2 ^ (64 * n) * 2 ^ 64 := by
        rw [← Nat.pow_add, ← Nat.pow_add, show 64 * i + 64 * n + 64 = 64 * (i + (n + 1)) by omega]
      rw [macSum] at hm
      rw [hsum, hpow]
      rw [Nat.mul_add 64 i n, Nat.pow_add] at hs h2
      clear hsum hpow ih e1 e2 h3
      generalize natOf (fun k => (r'.set (i + n) (macLow (r'.getD (i + n) 0) x (limb b n) c)).getD k 0) 12 = U at *
      generalize natOf (fun k => r'.getD k 0) 12 = V at *
      generalize natOf (fun k => r.getD k 0) 12 = W at *
      generalize (macLow (r'.getD (i + n) 0) x (limb b n) c).toNat = lo at *
      generalize (macHigh (r'.getD (i + n) 0) x (limb b n) c).toNat = hi at *
      generalize (r'.getD (i + n) 0).toNat = y at *
      generalize 2 ^ (64 * i) = P at *
      generalize 2 ^ (64 * n) = Q at *
      have hm' : (lo + 2 ^ 64 * hi) * (P * Q) = (y + x.toNat * (limb b n).toNat + c.toNat) * (P * Q) := by rw [hm]
      linarith
    · rw [getD_set r' _ _ _ (by omega), if_neg (by omega)]
      exact h3 k (by omega)

/-- The invariant of the rows of operand scanning (R122 (a)): after row i the limbs hold the partial product. -/
theorem scanRows_spec (a b : Wide) (i : Nat) (hi : i ≤ 6) :
    (scanRows a b i).length = 12 ∧ natOf (fun k => (scanRows a b i).getD k 0) 12 = natOf (limb a) i * natq b 6 ∧
      ∀ k, i + 6 ≤ k → (scanRows a b i).getD k 0 = 0 := by
  induction i with
  | zero =>
    have h0 : ∀ k, (scanRows a b 0).getD k 0 = 0 := fun k => by
      simp only [scanRows, List.getD, List.getElem?_replicate]
      split <;> rfl
    refine ⟨rfl, ?_, fun k _ => h0 k⟩
    rw [natOf_congr (m := fun _ => 0) fun k _ => h0 k, natOf_eq_of_zero (m := 0) (by omega) fun _ _ _ => rfl]
    simp [natOf]
  | succ i ih =>
    obtain ⟨h1, h2, h3⟩ := ih (by omega)
    obtain ⟨g1, g2, g3⟩ := scanColumns_spec (limb a i) b i h1 6 (by omega)
    have e : scanRows a b (i + 1) = (scanColumns (limb a i) b i (scanRows a b i) 6).1.set (i + 6)
        (scanColumns (limb a i) b i (scanRows a b i) 6).2 := rfl
    rw [e]
    generalize (scanColumns (limb a i) b i (scanRows a b i) 6).1 = r' at *
    generalize (scanColumns (limb a i) b i (scanRows a b i) 6).2 = c at *
    refine ⟨by rw [List.length_set, g1], ?_, fun k hk => ?_⟩
    · have hs := natOf_set (n := 12) r' c (p := i + 6) (by omega) (by omega)
      have hsum : natOf (limb a) (i + 1) = natOf (limb a) i + (limb a i).toNat * 2 ^ (64 * i) := rfl
      rw [g3 _ (le_refl _), h3 _ (le_refl _), show (0 : Word).toNat = 0 from rfl, Nat.zero_mul, Nat.add_zero, g2,
        h2] at hs
      rw [hs, hsum, Nat.add_mul, natq]
      ring
    · rw [getD_set r' _ _ _ (by omega), if_neg (by omega), g3 k (by omega), h3 k (by omega)]

end Sys2Proof.Machine
end

