-- ==== Sys2Proof/Laws/Decode.lean ====
section
/-! SUPPORT. The opcode map as arithmetic (30_encoding.md R71, R73, R80): what `w AND mask = match` says of the bits of a
word, that at most one row matches, and the fields of an encoded command. -/
namespace Sys2Proof

/-- A mask of two runs of ones, bits 31:h and bits (m-1):l, keeps exactly those bits. -/
theorem and_two_runs (n h m l : Nat) (hlm : l ≤ m) (hmh : m ≤ h) (hh : h ≤ 32) (hn : n < 2 ^ 32) :
    n &&& (2 ^ h * (2 ^ (32 - h) - 1) + (2 ^ l * (2 ^ (m - l) - 1) + 0)) =
      2 ^ h * (n / 2 ^ h) + (2 ^ l * (n / 2 ^ l % 2 ^ (m - l)) + 0) := by
  have hpow : 2 ^ l * 2 ^ (m - l) ≤ 2 ^ h := by
    rw [← Nat.pow_add]; exact Nat.pow_le_pow_right (by omega) (by omega)
  have h1 : 2 ^ l * (2 ^ (m - l) - 1) + 0 < 2 ^ h := by
    have : 2 ^ l * (2 ^ (m - l) - 1) < 2 ^ l * 2 ^ (m - l) :=
      Nat.mul_lt_mul_of_pos_left (Nat.sub_lt (Nat.two_pow_pos _) (by omega)) (Nat.two_pow_pos _)
    omega
  have h2 : 2 ^ l * (n / 2 ^ l % 2 ^ (m - l)) + 0 < 2 ^ h := by
    have : 2 ^ l * (n / 2 ^ l % 2 ^ (m - l)) < 2 ^ l * 2 ^ (m - l) :=
      Nat.mul_lt_mul_of_pos_left (Nat.mod_lt _ (Nat.two_pow_pos _)) (Nat.two_pow_pos _)
    omega
  apply Nat.eq_of_testBit_eq
  intro i
  rw [Nat.testBit_and, Nat.testBit_two_pow_mul_add _ h1, Nat.testBit_two_pow_mul_add _ h2]
  by_cases hi : i < h
  · rw [if_pos hi, if_pos hi, Nat.testBit_two_pow_mul_add _ (Nat.two_pow_pos _),
      Nat.testBit_two_pow_mul_add _ (Nat.two_pow_pos _)]
    by_cases hl : i < l
    · simp [hl]
    · rw [if_neg hl, if_neg hl, Nat.testBit_two_pow_sub_one, Nat.testBit_mod_two_pow, Nat.testBit_div_two_pow,
        Nat.sub_add_cancel (by omega), Bool.and_comm]
  · rw [if_neg hi, if_neg hi, Nat.testBit_two_pow_sub_one, Nat.testBit_div_two_pow, Nat.sub_add_cancel (by omega)]
    by_cases h32 : i < 32
    · simp [show i - h < 32 - h by omega]
    · have : n.testBit i = false := Nat.testBit_lt_two_pow (lt_of_lt_of_le hn (Nat.pow_le_pow_right (by omega) (by omega)))
      simp [this]

/-- `(w AND mask) = match` for a mask of two runs, as arithmetic on the word. -/
theorem and_mask_eq_iff (w mask pat : Cmd) (h m l : Nat) (hlm : l ≤ m) (hmh : m ≤ h) (hh : h ≤ 32)
    (hmask : mask.toNat = 2 ^ h * (2 ^ (32 - h) - 1) + (2 ^ l * (2 ^ (m - l) - 1) + 0)) :
    w &&& mask = pat ↔ 2 ^ h * (w.toNat / 2 ^ h) + 2 ^ l * (w.toNat / 2 ^ l % 2 ^ (m - l)) = pat.toNat := by
  rw [← BitVec.toNat_inj, BitVec.toNat_and, hmask, and_two_runs _ _ _ _ hlm hmh hh w.isLt, Nat.add_zero]

/-! ### The nine masks of R73 -/

theorem mask_D1 (w pat : Cmd) :
    w &&& 0xFF0FFFFF#32 = pat ↔ 2 ^ 24 * (w.toNat / 2 ^ 24) + w.toNat % 2 ^ 20 = pat.toNat := by
  simpa using and_mask_eq_iff w _ pat 24 20 0 (by decide) (by decide) (by decide) (by decide)

theorem mask_D2 (w pat : Cmd) :
    w &&& 0xFF00FFFF#32 = pat ↔ 2 ^ 24 * (w.toNat / 2 ^ 24) + w.toNat % 2 ^ 16 = pat.toNat := by
  simpa using and_mask_eq_iff w _ pat 24 16 0 (by decide) (by decide) (by decide) (by decide)

theorem mask_D3 (w pat : Cmd) :
    w &&& 0xFF000FFF#32 = pat ↔ 2 ^ 24 * (w.toNat / 2 ^ 24) + w.toNat % 2 ^ 12 = pat.toNat := by
  simpa using and_mask_eq_iff w _ pat 24 12 0 (by decide) (by decide) (by decide) (by decide)

theorem mask_A2 (w pat : Cmd) :
    w &&& 0xFFF00FFF#32 = pat ↔ 2 ^ 20 * (w.toNat / 2 ^ 20) + w.toNat % 2 ^ 12 = pat.toNat := by
  simpa using and_mask_eq_iff w _ pat 20 12 0 (by decide) (by decide) (by decide) (by decide)

theorem mask_M5 (w pat : Cmd) :
    w &&& 0xFF00000F#32 = pat ↔ 2 ^ 24 * (w.toNat / 2 ^ 24) + w.toNat % 2 ^ 4 = pat.toNat := by
  simpa using and_mask_eq_iff w _ pat 24 4 0 (by decide) (by decide) (by decide) (by decide)

theorem mask_Z0 (w pat : Cmd) : w &&& 0xFFFFFFFF#32 = pat ↔ w.toNat = pat.toNat := by
  rw [show (0xFFFFFFFF#32) = BitVec.allOnes 32 by decide, BitVec.and_allOnes, ← BitVec.toNat_inj]

theorem mask_limb (w pat : Cmd) : w &&& 0xFF00FFF0#32 = pat ↔
    2 ^ 24 * (w.toNat / 2 ^ 24) + 2 ^ 4 * (w.toNat / 2 ^ 4 % 2 ^ 12) = pat.toNat := by
  simpa using and_mask_eq_iff w _ pat 24 16 4 (by decide) (by decide) (by decide) (by decide)

theorem mask_lane2 (w pat : Cmd) : w &&& 0xFF00FFE0#32 = pat ↔
    2 ^ 24 * (w.toNat / 2 ^ 24) + 2 ^ 5 * (w.toNat / 2 ^ 5 % 2 ^ 11) = pat.toNat := by
  simpa using and_mask_eq_iff w _ pat 24 16 5 (by decide) (by decide) (by decide) (by decide)

theorem mask_lane3 (w pat : Cmd) : w &&& 0xFF000FE0#32 = pat ↔
    2 ^ 24 * (w.toNat / 2 ^ 24) + 2 ^ 5 * (w.toNat / 2 ^ 5 % 2 ^ 7) = pat.toNat := by
  simpa using and_mask_eq_iff w _ pat 24 12 5 (by decide) (by decide) (by decide) (by decide)

/-! ### The opcode decides the row -/

/-- The opcode of a word, bits 31:24. -/
theorem opcode_eq_div (w : Cmd) : bits w 31 24 = w.toNat / 2 ^ 24 := by
  have := w.isLt
  unfold bits
  omega

/-- A word that matches a row has the row's opcode: every mask covers bits 31:24. -/
theorem opcode_of_match {r : OpRow} (hr : r ∈ opcodeTable) {w : Cmd} (h : w &&& r.mask = r.pattern) :
    bits w 31 24 = bits r.pattern 31 24 := by
  have hw := w.isLt
  rw [opcode_eq_div, opcode_eq_div]
  simp only [opcodeTable, moveRows, carryRows, backendRows, conversionRows, laneRows, List.cons_append,
    List.nil_append, List.mem_cons, List.not_mem_nil, or_false] at hr
  rcases hr with rfl | rfl | rfl | rfl | rfl | rfl | rfl | rfl | rfl | rfl | rfl | rfl | rfl | rfl | rfl | rfl | rfl |
    rfl | rfl | rfl | rfl | rfl | rfl | rfl | rfl | rfl | rfl <;>
  simp only [mask_D1, mask_D2, mask_D3, mask_A2, mask_M5, mask_Z0, mask_limb, mask_lane2, mask_lane3,
    BitVec.toNat_ofNat] at h ⊢ <;>
  omega

/-- No two rows of the opcode map have the same opcode (R80: at most one row can match). -/
theorem opcodes_distinct : opcodeTable.Pairwise fun r q => bits r.pattern 31 24 ≠ bits q.pattern 31 24 := by
  decide

/-- The first row with a property, when no other row can have it. -/
theorem find?_eq_of_pairwise {p : OpRow → Bool} {l : List OpRow} {r : OpRow} (hr : r ∈ l) (hp : p r = true)
    (hl : l.Pairwise fun a b => p a = true → p b = true → False) : l.find? p = some r := by
  induction l with
  | nil => cases hr
  | cons a l ih =>
    rw [List.pairwise_cons] at hl
    rcases List.mem_cons.mp hr with rfl | hm
    · rw [List.find?_cons_of_pos hp]
    · have ha : ¬ p a = true := fun ha => hl.1 r hm ha hp
      rw [List.find?_cons_of_neg ha, ih hm hl.2]

/-- The row a word matches is the one `decode` finds (R80). -/
theorem matchRow_eq {r : OpRow} (hr : r ∈ opcodeTable) {w : Cmd} (h : w &&& r.mask = r.pattern) :
    matchRow w = some r := by
  have hmem : opcodeTable.Pairwise fun a b => a ∈ opcodeTable ∧ b ∈ opcodeTable :=
    List.Pairwise.and_mem.mp (List.pairwise_of_forall fun _ _ => trivial) |>.imp fun h => ⟨h.1, h.2.1⟩
  refine find?_eq_of_pairwise hr (by simpa using h) ?_
  refine (opcodes_distinct.and hmem).imp ?_
  rintro a b ⟨hne, ha, hb⟩ h1 h2
  exact hne ((opcode_of_match ha (by simpa using h1)).symm.trans (opcode_of_match hb (by simpa using h2)))

/-- Decoding a word that matches a row (R80). -/
theorem decode_of_match {r : OpRow} (hr : r ∈ opcodeTable) {w : Cmd} (h : w &&& r.mask = r.pattern) :
    decode w = if (r.build w).wf then .command (r.build w) else .illegal .macSameRegister := by
  simp only [decode, matchRow_eq hr h]

/-- What a decoded word says: its row, and that the command is well-formed (R80). -/
theorem decode_inv {w : Cmd} {i : Instr} (h : decode w = .command i) :
    ∃ r ∈ opcodeTable, w &&& r.mask = r.pattern ∧ r.build w = i ∧ i.wf = true := by
  unfold decode at h
  split at h
  next r hr =>
    split at h
    next hwf =>
      cases h
      refine ⟨r, List.mem_of_find?_eq_some hr, ?_, rfl, hwf⟩
      simpa using List.find?_some hr
    next => cases h
  next => cases h

/-! ### The fields of an encoded command -/

theorem packWord_toNat {op rd ra rb rc rk low : Nat} (h : op < 256) (hd : rd < 16) (ha : ra < 16) (hb : rb < 16)
    (hc : rc < 16) (hk : rk * 16 + low < 256) : (packWord op rd ra rb rc rk low).toNat =
      op * 2 ^ 24 + rd * 2 ^ 20 + ra * 2 ^ 16 + rb * 2 ^ 12 + rc * 2 ^ 8 + rk * 2 ^ 4 + low := by
  rw [packWord, BitVec.toNat_ofNat, Nat.mod_eq_of_lt (by omega)]

/-- A word whose bits are these fields is the packed word (R71). -/
theorem packWord_of_toNat {w : Cmd} {op rd ra rb rc rk low : Nat}
    (h : w.toNat = op * 2 ^ 24 + rd * 2 ^ 20 + ra * 2 ^ 16 + rb * 2 ^ 12 + rc * 2 ^ 8 + rk * 2 ^ 4 + low) :
    packWord op rd ra rb rc rk low = w := by
  rw [packWord, ← h, BitVec.ofNat_toNat, BitVec.setWidth_eq]

theorem regField_val (w : Cmd) (lo : Nat) : (regField w lo).val = w.toNat / 2 ^ lo % 16 := by
  simp only [regField, bits, Fin.ofNat]
  rw [show lo + 3 - lo + 1 = 4 by omega]
  omega

theorem fieldImm_val (w : Cmd) : (fieldImm w).val = w.toNat % 32 := by
  simp only [fieldImm, bits, Fin.ofNat]
  omega

theorem fieldLimb_val (w : Cmd) : (fieldLimb w).val = w.toNat % 16 := by
  simp only [fieldLimb, bits, Fin.ofNat]
  omega

end Sys2Proof
end

