-- ==== Sys2Proof/Laws/State.lean ====
section
/-! SUPPORT. One lemma per field per update of State, each true by definition. -/
namespace Sys2Proof.Machine

/-! ### writeX -/

@[simp] theorem State.writeX_x (s : State) (i : XReg) (w : Word) : (s.writeX i w).x = s.x.set i w := rfl
@[simp] theorem State.writeX_v (s : State) (i : XReg) (w : Word) : (s.writeX i w).v = s.v := rfl
@[simp] theorem State.writeX_acc (s : State) (i : XReg) (w : Word) : (s.writeX i w).acc = s.acc := rfl
@[simp] theorem State.writeX_status (s : State) (i : XReg) (w : Word) : (s.writeX i w).status = s.status := rfl
@[simp] theorem State.writeX_badcmd (s : State) (i : XReg) (w : Word) : (s.writeX i w).badcmd = s.badcmd := rfl
@[simp] theorem State.writeX_xWritten (s : State) (i : XReg) (w : Word) : (s.writeX i w).xWritten = s.xWritten.set i true := rfl
@[simp] theorem State.writeX_vWritten (s : State) (i : XReg) (w : Word) : (s.writeX i w).vWritten = s.vWritten := rfl
@[simp] theorem State.writeX_accWritten (s : State) (i : XReg) (w : Word) : (s.writeX i w).accWritten = s.accWritten := rfl
@[simp] theorem State.writeX_pending (s : State) (i : XReg) (w : Word) : (s.writeX i w).pending = s.pending := rfl
@[simp] theorem State.writeX_replies (s : State) (i : XReg) (w : Word) : (s.writeX i w).replies = s.replies := rfl
@[simp] theorem State.writeX_draws (s : State) (i : XReg) (w : Word) : (s.writeX i w).draws = s.draws := rfl

/-! ### writeV -/

@[simp] theorem State.writeV_x (s : State) (i : VReg) (w : Wide) : (s.writeV i w).x = s.x := rfl
@[simp] theorem State.writeV_v (s : State) (i : VReg) (w : Wide) : (s.writeV i w).v = s.v.set i w := rfl
@[simp] theorem State.writeV_acc (s : State) (i : VReg) (w : Wide) : (s.writeV i w).acc = s.acc := rfl
@[simp] theorem State.writeV_status (s : State) (i : VReg) (w : Wide) : (s.writeV i w).status = s.status := rfl
@[simp] theorem State.writeV_badcmd (s : State) (i : VReg) (w : Wide) : (s.writeV i w).badcmd = s.badcmd := rfl
@[simp] theorem State.writeV_xWritten (s : State) (i : VReg) (w : Wide) : (s.writeV i w).xWritten = s.xWritten := rfl
@[simp] theorem State.writeV_vWritten (s : State) (i : VReg) (w : Wide) : (s.writeV i w).vWritten = s.vWritten.set i true := rfl
@[simp] theorem State.writeV_accWritten (s : State) (i : VReg) (w : Wide) : (s.writeV i w).accWritten = s.accWritten := rfl
@[simp] theorem State.writeV_pending (s : State) (i : VReg) (w : Wide) : (s.writeV i w).pending = s.pending := rfl
@[simp] theorem State.writeV_replies (s : State) (i : VReg) (w : Wide) : (s.writeV i w).replies = s.replies := rfl
@[simp] theorem State.writeV_draws (s : State) (i : VReg) (w : Wide) : (s.writeV i w).draws = s.draws := rfl

/-! ### writeAcc -/

@[simp] theorem State.writeAcc_x (s : State) (w : Acc) : (s.writeAcc w).x = s.x := rfl
@[simp] theorem State.writeAcc_v (s : State) (w : Acc) : (s.writeAcc w).v = s.v := rfl
@[simp] theorem State.writeAcc_acc (s : State) (w : Acc) : (s.writeAcc w).acc = w := rfl
@[simp] theorem State.writeAcc_status (s : State) (w : Acc) : (s.writeAcc w).status = s.status := rfl
@[simp] theorem State.writeAcc_badcmd (s : State) (w : Acc) : (s.writeAcc w).badcmd = s.badcmd := rfl
@[simp] theorem State.writeAcc_xWritten (s : State) (w : Acc) : (s.writeAcc w).xWritten = s.xWritten := rfl
@[simp] theorem State.writeAcc_vWritten (s : State) (w : Acc) : (s.writeAcc w).vWritten = s.vWritten := rfl
@[simp] theorem State.writeAcc_accWritten (s : State) (w : Acc) : (s.writeAcc w).accWritten = true := rfl
@[simp] theorem State.writeAcc_pending (s : State) (w : Acc) : (s.writeAcc w).pending = s.pending := rfl
@[simp] theorem State.writeAcc_replies (s : State) (w : Acc) : (s.writeAcc w).replies = s.replies := rfl
@[simp] theorem State.writeAcc_draws (s : State) (w : Acc) : (s.writeAcc w).draws = s.draws := rfl

/-! ### writeUnspecified -/

@[simp] theorem State.writeUnspecified_x (s : State) (i : VReg) : (s.writeUnspecified i).x = s.x := rfl
@[simp] theorem State.writeUnspecified_v (s : State) (i : VReg) : (s.writeUnspecified i).v = s.v.set i (Config.unspecified s.draws) := rfl
@[simp] theorem State.writeUnspecified_acc (s : State) (i : VReg) : (s.writeUnspecified i).acc = s.acc := rfl
@[simp] theorem State.writeUnspecified_status (s : State) (i : VReg) : (s.writeUnspecified i).status = s.status := rfl
@[simp] theorem State.writeUnspecified_badcmd (s : State) (i : VReg) : (s.writeUnspecified i).badcmd = s.badcmd := rfl
@[simp] theorem State.writeUnspecified_xWritten (s : State) (i : VReg) : (s.writeUnspecified i).xWritten = s.xWritten := rfl
@[simp] theorem State.writeUnspecified_vWritten (s : State) (i : VReg) : (s.writeUnspecified i).vWritten = s.vWritten.set i true := rfl
@[simp] theorem State.writeUnspecified_accWritten (s : State) (i : VReg) : (s.writeUnspecified i).accWritten = s.accWritten := rfl
@[simp] theorem State.writeUnspecified_pending (s : State) (i : VReg) : (s.writeUnspecified i).pending = s.pending := rfl
@[simp] theorem State.writeUnspecified_replies (s : State) (i : VReg) : (s.writeUnspecified i).replies = s.replies := rfl
@[simp] theorem State.writeUnspecified_draws (s : State) (i : VReg) : (s.writeUnspecified i).draws = s.draws + 1 := rfl

/-! ### raise -/

@[simp] theorem State.raise_x (s : State) (c : Cause) (w : Cmd) : (s.raise c w).x = s.x := rfl
@[simp] theorem State.raise_v (s : State) (c : Cause) (w : Cmd) : (s.raise c w).v = s.v := rfl
@[simp] theorem State.raise_acc (s : State) (c : Cause) (w : Cmd) : (s.raise c w).acc = s.acc := rfl
@[simp] theorem State.raise_status (s : State) (c : Cause) (w : Cmd) : (s.raise c w).status = c.statusWord := rfl
@[simp] theorem State.raise_badcmd (s : State) (c : Cause) (w : Cmd) : (s.raise c w).badcmd = w := rfl
@[simp] theorem State.raise_xWritten (s : State) (c : Cause) (w : Cmd) : (s.raise c w).xWritten = s.xWritten := rfl
@[simp] theorem State.raise_vWritten (s : State) (c : Cause) (w : Cmd) : (s.raise c w).vWritten = s.vWritten := rfl
@[simp] theorem State.raise_accWritten (s : State) (c : Cause) (w : Cmd) : (s.raise c w).accWritten = s.accWritten := rfl
@[simp] theorem State.raise_pending (s : State) (c : Cause) (w : Cmd) : (s.raise c w).pending = s.pending := rfl
@[simp] theorem State.raise_replies (s : State) (c : Cause) (w : Cmd) : (s.raise c w).replies = s.replies := rfl
@[simp] theorem State.raise_draws (s : State) (c : Cause) (w : Cmd) : (s.raise c w).draws = s.draws := rfl

/-! ### reply -/

@[simp] theorem State.reply_x (s : State) (r : HostReply) : (s.reply r).x = s.x := rfl
@[simp] theorem State.reply_v (s : State) (r : HostReply) : (s.reply r).v = s.v := rfl
@[simp] theorem State.reply_acc (s : State) (r : HostReply) : (s.reply r).acc = s.acc := rfl
@[simp] theorem State.reply_status (s : State) (r : HostReply) : (s.reply r).status = s.status := rfl
@[simp] theorem State.reply_badcmd (s : State) (r : HostReply) : (s.reply r).badcmd = s.badcmd := rfl
@[simp] theorem State.reply_xWritten (s : State) (r : HostReply) : (s.reply r).xWritten = s.xWritten := rfl
@[simp] theorem State.reply_vWritten (s : State) (r : HostReply) : (s.reply r).vWritten = s.vWritten := rfl
@[simp] theorem State.reply_accWritten (s : State) (r : HostReply) : (s.reply r).accWritten = s.accWritten := rfl
@[simp] theorem State.reply_pending (s : State) (r : HostReply) : (s.reply r).pending = s.pending := rfl
@[simp] theorem State.reply_replies (s : State) (r : HostReply) : (s.reply r).replies = r :: s.replies := rfl
@[simp] theorem State.reply_draws (s : State) (r : HostReply) : (s.reply r).draws = s.draws := rfl

/-! ### taken -/

@[simp] theorem State.taken_x (s : State) (rest : List HostTx) : (s.taken rest).x = s.x := rfl
@[simp] theorem State.taken_v (s : State) (rest : List HostTx) : (s.taken rest).v = s.v := rfl
@[simp] theorem State.taken_acc (s : State) (rest : List HostTx) : (s.taken rest).acc = s.acc := rfl
@[simp] theorem State.taken_status (s : State) (rest : List HostTx) : (s.taken rest).status = s.status := rfl
@[simp] theorem State.taken_badcmd (s : State) (rest : List HostTx) : (s.taken rest).badcmd = s.badcmd := rfl
@[simp] theorem State.taken_xWritten (s : State) (rest : List HostTx) : (s.taken rest).xWritten = s.xWritten := rfl
@[simp] theorem State.taken_vWritten (s : State) (rest : List HostTx) : (s.taken rest).vWritten = s.vWritten := rfl
@[simp] theorem State.taken_accWritten (s : State) (rest : List HostTx) : (s.taken rest).accWritten = s.accWritten := rfl
@[simp] theorem State.taken_pending (s : State) (rest : List HostTx) : (s.taken rest).pending = rest := rfl
@[simp] theorem State.taken_replies (s : State) (rest : List HostTx) : (s.taken rest).replies = s.replies := rfl
@[simp] theorem State.taken_draws (s : State) (rest : List HostTx) : (s.taken rest).draws = s.draws := rfl

/-! ### giveCommand -/

@[simp] theorem State.giveCommand_x (s : State) (w : Cmd) : (s.giveCommand w).x = s.x := rfl
@[simp] theorem State.giveCommand_v (s : State) (w : Cmd) : (s.giveCommand w).v = s.v := rfl
@[simp] theorem State.giveCommand_acc (s : State) (w : Cmd) : (s.giveCommand w).acc = s.acc := rfl
@[simp] theorem State.giveCommand_status (s : State) (w : Cmd) : (s.giveCommand w).status = s.status := rfl
@[simp] theorem State.giveCommand_badcmd (s : State) (w : Cmd) : (s.giveCommand w).badcmd = s.badcmd := rfl
@[simp] theorem State.giveCommand_xWritten (s : State) (w : Cmd) : (s.giveCommand w).xWritten = s.xWritten := rfl
@[simp] theorem State.giveCommand_vWritten (s : State) (w : Cmd) : (s.giveCommand w).vWritten = s.vWritten := rfl
@[simp] theorem State.giveCommand_accWritten (s : State) (w : Cmd) : (s.giveCommand w).accWritten = s.accWritten := rfl
@[simp] theorem State.giveCommand_pending (s : State) (w : Cmd) : (s.giveCommand w).pending = .hcmd w :: s.pending := rfl
@[simp] theorem State.giveCommand_replies (s : State) (w : Cmd) : (s.giveCommand w).replies = s.replies := rfl
@[simp] theorem State.giveCommand_draws (s : State) (w : Cmd) : (s.giveCommand w).draws = s.draws := rfl

/-! ### hostReset -/

@[simp] theorem State.hostReset_x (s : State) : s.hostReset.x = Vector.replicate 16 0 := rfl
@[simp] theorem State.hostReset_v (s : State) : s.hostReset.v = Vector.replicate 16 0 := rfl
@[simp] theorem State.hostReset_acc (s : State) : s.hostReset.acc = 0 := rfl
@[simp] theorem State.hostReset_status (s : State) : s.hostReset.status = 0 := rfl
@[simp] theorem State.hostReset_badcmd (s : State) : s.hostReset.badcmd = 0 := rfl
@[simp] theorem State.hostReset_xWritten (s : State) : s.hostReset.xWritten = Vector.replicate 16 false := rfl
@[simp] theorem State.hostReset_vWritten (s : State) : s.hostReset.vWritten = Vector.replicate 16 false := rfl
@[simp] theorem State.hostReset_accWritten (s : State) : s.hostReset.accWritten = false := rfl
@[simp] theorem State.hostReset_pending (s : State) : s.hostReset.pending = s.pending := rfl
@[simp] theorem State.hostReset_replies (s : State) : s.hostReset.replies = s.replies := rfl
@[simp] theorem State.hostReset_draws (s : State) : s.hostReset.draws = s.draws := rfl

/-! ### reset -/

@[simp] theorem State.reset_x : State.reset.x = Vector.replicate 16 0 := rfl
@[simp] theorem State.reset_v : State.reset.v = Vector.replicate 16 0 := rfl
@[simp] theorem State.reset_acc : State.reset.acc = 0 := rfl
@[simp] theorem State.reset_status : State.reset.status = 0 := rfl
@[simp] theorem State.reset_badcmd : State.reset.badcmd = 0 := rfl
@[simp] theorem State.reset_xWritten : State.reset.xWritten = Vector.replicate 16 false := rfl
@[simp] theorem State.reset_vWritten : State.reset.vWritten = Vector.replicate 16 false := rfl
@[simp] theorem State.reset_accWritten : State.reset.accWritten = false := rfl
@[simp] theorem State.reset_pending : State.reset.pending = [] := rfl
@[simp] theorem State.reset_replies : State.reset.replies = [] := rfl
@[simp] theorem State.reset_draws : State.reset.draws = 0 := rfl

end Sys2Proof.Machine
end

