-- ==== Sys2Proof/Laws/Ops.lean ====
section
/-! SUPPORT. What each shared operation does, said once: reading after writing, and the effect (`Ran`, `RanUnspecified`,
`Faulted` of Safety) of every write. -/
namespace Sys2Proof.Machine

open Sys2Proof.Safety

/-! ### Reading after writing -/

@[simp] theorem readX_writeX (s : State) (i j : XReg) (w : Word) :
    (s.writeX i w).readX j = if i = j then w else s.readX j := by
  simp [State.readX, Vector.getElem_set, Fin.ext_iff]

@[simp] theorem readV_writeV (s : State) (i j : VReg) (w : Wide) :
    (s.writeV i w).readV j = if i = j then w else s.readV j := by
  simp [State.readV, Vector.getElem_set, Fin.ext_iff]

@[simp] theorem readV_writeX (s : State) (i : XReg) (w : Word) (j : VReg) : (s.writeX i w).readV j = s.readV j := rfl
@[simp] theorem readX_writeV (s : State) (i : VReg) (w : Wide) (j : XReg) : (s.writeV i w).readX j = s.readX j := rfl
@[simp] theorem readX_writeAcc (s : State) (w : Acc) (j : XReg) : (s.writeAcc w).readX j = s.readX j := rfl
@[simp] theorem readV_writeAcc (s : State) (w : Acc) (j : VReg) : (s.writeAcc w).readV j = s.readV j := rfl
@[simp] theorem readX_raise (s : State) (c : Cause) (w : Cmd) (j : XReg) : (s.raise c w).readX j = s.readX j := rfl
@[simp] theorem readV_raise (s : State) (c : Cause) (w : Cmd) (j : VReg) : (s.raise c w).readV j = s.readV j := rfl
@[simp] theorem readX_reply (s : State) (r : HostReply) (j : XReg) : (s.reply r).readX j = s.readX j := rfl
@[simp] theorem readV_reply (s : State) (r : HostReply) (j : VReg) : (s.reply r).readV j = s.readV j := rfl
@[simp] theorem readX_taken (s : State) (l : List HostTx) (j : XReg) : (s.taken l).readX j = s.readX j := rfl
@[simp] theorem readV_taken (s : State) (l : List HostTx) (j : VReg) : (s.taken l).readV j = s.readV j := rfl

@[simp] theorem readX_writeUnspecified (s : State) (i : VReg) (j : XReg) :
    (s.writeUnspecified i).readX j = s.readX j := rfl

@[simp] theorem readV_writeUnspecified (s : State) (i j : VReg) :
    (s.writeUnspecified i).readV j = if i = j then Config.unspecified s.draws else s.readV j :=
  readV_writeV s i j _

/-! ### Contents and written bits, register by register -/

@[simp] theorem contents_taken (s : State) (l : List HostTx) (r : RegName) : (s.taken l).contents r = s.contents r := by
  cases r <;> rfl

@[simp] theorem isWritten_taken (s : State) (l : List HostTx) (r : RegName) : (s.taken l).isWritten r = s.isWritten r := by
  cases r <;> rfl

@[simp] theorem contents_reply (s : State) (a : HostReply) (r : RegName) : (s.reply a).contents r = s.contents r := by
  cases r <;> rfl

@[simp] theorem isWritten_reply (s : State) (a : HostReply) (r : RegName) : (s.reply a).isWritten r = s.isWritten r := by
  cases r <;> rfl

@[simp] theorem contents_raise (s : State) (c : Cause) (w : Cmd) (r : RegName) :
    (s.raise c w).contents r = s.contents r := by
  cases r <;> rfl

@[simp] theorem isWritten_raise (s : State) (c : Cause) (w : Cmd) (r : RegName) :
    (s.raise c w).isWritten r = s.isWritten r := by
  cases r <;> rfl

@[simp] theorem contents_writeX (s : State) (i : XReg) (w : Word) (r : RegName) :
    (s.writeX i w).contents r = if r = .x i then w.toNat else s.contents r := by
  cases r with
  | x j => by_cases h : i = j <;> simp [State.contents, h, eq_comm]
  | v j => simp [State.contents]
  | acc => simp [State.contents]

@[simp] theorem contents_writeV (s : State) (i : VReg) (w : Wide) (r : RegName) :
    (s.writeV i w).contents r = if r = .v i then w.toNat else s.contents r := by
  cases r with
  | x j => simp [State.contents]
  | v j => by_cases h : i = j <;> simp [State.contents, h, eq_comm]
  | acc => simp [State.contents]

@[simp] theorem contents_writeAcc (s : State) (w : Acc) (r : RegName) :
    (s.writeAcc w).contents r = if r = .acc then w.toNat else s.contents r := by
  cases r <;> simp [State.contents]

@[simp] theorem contents_writeUnspecified (s : State) (i : VReg) (r : RegName) :
    (s.writeUnspecified i).contents r = if r = .v i then (Config.unspecified s.draws).toNat else s.contents r := by
  rw [show (s.writeUnspecified i).contents r = (s.writeV i (Config.unspecified s.draws)).contents r by cases r <;> rfl,
    contents_writeV]

@[simp] theorem isWritten_writeX (s : State) (i : XReg) (w : Word) (r : RegName) :
    (s.writeX i w).isWritten r = if r = .x i then true else s.isWritten r := by
  cases r with
  | x j => by_cases h : i = j <;> simp_all [State.isWritten, Fin.ext_iff, eq_comm]
  | v j => simp [State.isWritten]
  | acc => simp [State.isWritten]

@[simp] theorem isWritten_writeV (s : State) (i : VReg) (w : Wide) (r : RegName) :
    (s.writeV i w).isWritten r = if r = .v i then true else s.isWritten r := by
  cases r with
  | x j => simp [State.isWritten]
  | v j => by_cases h : i = j <;> simp_all [State.isWritten, Fin.ext_iff, eq_comm]
  | acc => simp [State.isWritten]

@[simp] theorem isWritten_writeAcc (s : State) (w : Acc) (r : RegName) :
    (s.writeAcc w).isWritten r = if r = .acc then true else s.isWritten r := by
  cases r <;> simp [State.isWritten]

@[simp] theorem isWritten_writeUnspecified (s : State) (i : VReg) (r : RegName) :
    (s.writeUnspecified i).isWritten r = if r = .v i then true else s.isWritten r := by
  rw [show (s.writeUnspecified i).isWritten r = (s.writeV i 0).isWritten r by cases r <;> rfl, isWritten_writeV]

@[simp] theorem isWritten_hostReset (s : State) (r : RegName) : s.hostReset.isWritten r = false := by
  cases r <;> simp [State.isWritten, Vector.getElem_replicate]

/-- The contents of a register say which bits it holds. -/
theorem readX_eq_of_contents {s t : State} {i : XReg} (h : s.contents (.x i) = t.contents (.x i)) :
    s.readX i = t.readX i := BitVec.eq_of_toNat_eq h

theorem readV_eq_of_contents {s t : State} {i : VReg} (h : s.contents (.v i) = t.contents (.v i)) :
    s.readV i = t.readV i := BitVec.eq_of_toNat_eq h

theorem acc_eq_of_contents {s t : State} (h : s.contents .acc = t.contents .acc) : s.acc = t.acc :=
  BitVec.eq_of_toNat_eq h

/-! ### The status word -/

@[simp] theorem Cause.code_illegalCommand : Cause.illegalCommand.code = 1 := rfl
@[simp] theorem Cause.code_notImplemented : Cause.notImplemented.code = 2 := rfl
@[simp] theorem Cause.code_accOverflow : Cause.accOverflow.code = 3 := rfl
@[simp] theorem Cause.statusWord_illegalCommand : Cause.illegalCommand.statusWord = 1 := rfl
@[simp] theorem Cause.statusWord_notImplemented : Cause.notImplemented.statusWord = 2 := rfl
@[simp] theorem Cause.statusWord_accOverflow : Cause.accOverflow.statusWord = 3 := rfl

@[simp] theorem cause_raise (s : State) (c : Cause) (w : Cmd) : (s.raise c w).cause = c.code := by
  cases c <;> rfl

@[simp] theorem halted_raise (s : State) (c : Cause) (w : Cmd) : (s.raise c w).halted = true := by
  cases c <;> rfl

@[simp] theorem err_raise (s : State) (c : Cause) (w : Cmd) : (s.raise c w).err = true := by
  cases c <;> rfl

@[simp] theorem halted_taken (s : State) (l : List HostTx) : (s.taken l).halted = s.halted := rfl
@[simp] theorem halted_reply (s : State) (r : HostReply) : (s.reply r).halted = s.halted := rfl
@[simp] theorem halted_hostReset (s : State) : s.hostReset.halted = false := rfl

/-! ### The effect of each operation -/

theorem ran_writeX (s : State) (i : XReg) (w : Word) : Ran [.x i] s (s.writeX i w) := by
  refine ⟨⟨fun r hr => ?_, fun r hr => ?_⟩, ⟨rfl, rfl⟩, ⟨rfl, rfl⟩, rfl⟩ <;> simp_all

theorem ran_writeV (s : State) (i : VReg) (w : Wide) : Ran [.v i] s (s.writeV i w) := by
  refine ⟨⟨fun r hr => ?_, fun r hr => ?_⟩, ⟨rfl, rfl⟩, ⟨rfl, rfl⟩, rfl⟩ <;> simp_all

theorem ran_writeAcc (s : State) (w : Acc) : Ran [.acc] s (s.writeAcc w) := by
  refine ⟨⟨fun r hr => ?_, fun r hr => ?_⟩, ⟨rfl, rfl⟩, ⟨rfl, rfl⟩, rfl⟩ <;> simp_all

theorem ran_writeX_writeX (s : State) (i j : XReg) (w z : Word) : Ran [.x i, .x j] s ((s.writeX i w).writeX j z) := by
  refine ⟨⟨fun r hr => ?_, fun r hr => ?_⟩, ⟨rfl, rfl⟩, ⟨rfl, rfl⟩, rfl⟩ <;> simp_all; tauto

theorem ran_writeX_writeAcc (s : State) (i : XReg) (w : Word) (z : Acc) :
    Ran [.x i, .acc] s ((s.writeX i w).writeAcc z) := by
  refine ⟨⟨fun r hr => ?_, fun r hr => ?_⟩, ⟨rfl, rfl⟩, ⟨rfl, rfl⟩, rfl⟩ <;> simp_all; tauto

theorem ranUnspecified_writeUnspecified (s : State) (d : VReg) : RanUnspecified d s (s.writeUnspecified d) := by
  refine ⟨⟨fun r hr => ?_, fun r hr => ?_⟩, ⟨rfl, rfl⟩, ⟨rfl, rfl⟩, rfl⟩ <;> simp_all

theorem faulted_raise (s : State) (c : Cause) (w : Cmd) : Faulted c w s (s.raise c w) := by
  refine ⟨fun r => by simp, ?_, rfl, by simp, ⟨rfl, rfl⟩, rfl⟩
  cases c <;> rfl

/-- All that adding into ACC can do (R103, R104, R107). -/
theorem accumulate_cases (s : State) (p : Nat) (w : Cmd) :
    (s.acc.toNat + p < 2 ^ 192 ∧ s.accumulate p w = s.writeAcc (BitVec.ofNat 192 (s.acc.toNat + p))) ∨
      (2 ^ 192 ≤ s.acc.toNat + p ∧ s.accumulate p w = s.raise .accOverflow w) := by
  rcases Nat.lt_or_ge (s.acc.toNat + p) (2 ^ 192) with h | h
  · exact .inl ⟨h, if_pos h⟩
  · exact .inr ⟨h, if_neg (Nat.not_lt.mpr h)⟩

/-- All that a write whose value is defined only for valid sources can do (R38). -/
theorem writeIfValid_cases (s : State) (ok : Bool) (d : VReg) (w : Wide) :
    (ok = true ∧ s.writeIfValid ok d w = s.writeV d w) ∨
      (ok = false ∧ s.writeIfValid ok d w = s.writeUnspecified d) := by
  cases ok
  · exact .inr ⟨rfl, rfl⟩
  · exact .inl ⟨rfl, rfl⟩

end Sys2Proof.Machine
end

