-- ==== Sys2Proof/Laws/Dispatch.lean ====
section
/-! SUPPORT. What executing a command can do, said once (10_state.md R31, 60_exceptions.md R236): every command answers a
next state, and that state is one of a few updates of the state before. -/
namespace Sys2Proof.Machine

open Sys2Proof.Safety

/-- The updates a command `i` can make to `s`. -/
inductive CommandEffect (i : Instr) (s : State) : State → Prop
  | writesX (d : XReg) (w : Word) (h : writes i = [.x d]) : CommandEffect i s (s.writeX d w)
  | writesV (d : VReg) (w : Wide) (h : writes i = [.v d]) : CommandEffect i s (s.writeV d w)
  | writesAcc (w : Acc) (h : writes i = [.acc]) : CommandEffect i s (s.writeAcc w)
  | writesXX (d k : XReg) (w z : Word) (h : writes i = [.x d, .x k]) : CommandEffect i s ((s.writeX d w).writeX k z)
  | writesXAcc (d : XReg) (w : Word) (z : Acc) (h : writes i = [.x d, .acc]) :
      CommandEffect i s ((s.writeX d w).writeAcc z)
  | writesUnspecified (d : VReg) (h : writes i = [.v d]) : CommandEffect i s (s.writeUnspecified d)
  | illegal (h : i.wf = false) : CommandEffect i s (s.raise .illegalCommand (encode i))
  | unfinished (h : IsUnfinished i = true) : CommandEffect i s (s.raise .notImplemented (encode i))
  | overflowsMacc (a b : XReg) (h : i = .macc a b)
      (ho : 2 ^ 192 ≤ s.acc.toNat + (s.readX a).toNat * (s.readX b).toNat) :
      CommandEffect i s (s.raise .accOverflow (encode i))
  | overflowsMaccd (a b : XReg) (h : i = .maccd a b)
      (ho : 2 ^ 192 ≤ s.acc.toNat + 2 * (s.readX a).toNat * (s.readX b).toNat) :
      CommandEffect i s (s.raise .accOverflow (encode i))

theorem CommandEffect.of_writeIfValid {i : Instr} (s : State) (ok : Bool) (d : VReg) (w : Wide)
    (h : writes i = [.v d]) : CommandEffect i s (s.writeIfValid ok d w) := by
  rcases writeIfValid_cases s ok d w with ⟨-, he⟩ | ⟨-, he⟩ <;> rw [he]
  · exact .writesV d w h
  · exact .writesUnspecified d h

/-- Every command answers a next state, reached by one of these updates. -/
theorem exec_effect (i : Instr) (s : State) : ∃ t, exec i s = .next t ∧ CommandEffect i s t := by
  cases i with
  | mac d k a b c =>
    by_cases h : d = k
    · exact ⟨_, if_pos h, .illegal (by simp [Instr.wf, h])⟩
    · exact ⟨_, if_neg h, .writesXX _ _ _ _ rfl⟩
  | getq d a imm => exact ⟨_, rfl, .writesX _ _ rfl⟩
  | accclr => exact ⟨_, rfl, .writesAcc _ rfl⟩
  | macc a b =>
    rcases accumulate_cases s ((s.readX a).toNat * (s.readX b).toNat) (encode (.macc a b)) with ⟨-, he⟩ | ⟨ho, he⟩
    · exact ⟨_, congrArg Host.Outcome.next he, .writesAcc _ rfl⟩
    · exact ⟨_, congrArg Host.Outcome.next he, .overflowsMacc a b rfl ho⟩
  | maccd a b =>
    rcases accumulate_cases s (2 * (s.readX a).toNat * (s.readX b).toNat) (encode (.maccd a b)) with ⟨-, he⟩ | ⟨ho, he⟩
    · exact ⟨_, congrArg Host.Outcome.next he, .writesAcc _ rfl⟩
    · exact ⟨_, congrArg Host.Outcome.next he, .overflowsMaccd a b rfl ho⟩
  | accsh d => exact ⟨_, rfl, .writesXAcc _ _ _ rfl⟩
  | mulp d a b => exact ⟨_, rfl, .of_writeIfValid _ _ _ _ rfl⟩
  | mulh d a b => exact ⟨_, rfl, .of_writeIfValid _ _ _ _ rfl⟩
  | mulz d a b => exact ⟨_, rfl, .of_writeIfValid _ _ _ _ rfl⟩
  | fromcanh d a => exact ⟨_, rfl, .of_writeIfValid _ _ _ _ rfl⟩
  | mulw d a b => exact ⟨_, rfl, .unfinished rfl⟩
  | cvt29 d a => exact ⟨_, rfl, .unfinished rfl⟩
  | cvt64 d a => exact ⟨_, rfl, .unfinished rfl⟩
  | vzero d => exact ⟨_, rfl, .writesV _ _ rfl⟩
  | setq d a imm => exact ⟨_, rfl, .writesV _ _ rfl⟩
  | muls d a b => exact ⟨_, rfl, .writesV _ _ rfl⟩
  | sqrs d a => exact ⟨_, rfl, .writesV _ _ rfl⟩
  | tocanp d a => exact ⟨_, rfl, .writesV _ _ rfl⟩
  | fromcanp d a => exact ⟨_, rfl, .writesV _ _ rfl⟩
  | tocanh d a => exact ⟨_, rfl, .writesV _ _ rfl⟩
  | tocanz d a => exact ⟨_, rfl, .writesV _ _ rfl⟩
  | fromcanz d a => exact ⟨_, rfl, .writesV _ _ rfl⟩
  | tocanprod d a => exact ⟨_, rfl, .writesV _ _ rfl⟩
  | lmullo d a b imm => exact ⟨_, rfl, .writesV _ _ rfl⟩
  | lmulhi d a b imm => exact ⟨_, rfl, .writesV _ _ rfl⟩
  | lshr d a => exact ⟨_, rfl, .writesV _ _ rfl⟩
  | lins d a imm => exact ⟨_, rfl, .writesV _ _ rfl⟩

/-- The inversion of `exec`: a next state is reached by one of the updates. -/
theorem exec_inv {i : Instr} {s t : State} (h : exec i s = .next t) : CommandEffect i s t := by
  obtain ⟨u, hu, he⟩ := exec_effect i s
  rw [hu] at h
  cases h
  exact he

/-- No command touches the host's lists (R51). -/
theorem CommandEffect.hostKept {i : Instr} {s t : State} (h : CommandEffect i s t) :
    t.pending = s.pending ∧ t.replies = s.replies := by
  cases h <;> exact ⟨rfl, rfl⟩

end Sys2Proof.Machine
end

