-- ==== Sys2Proof/Laws/PerInstr.lean ====
section
/-! SUPPORT. The family EncodedRow: every command's word matches a row of the opcode map R73, and that row's fields
(R71) give the command back. One lemma per constructor. -/
namespace Sys2Proof.Laws

/-! ### Fields of a packed word (R71) -/

theorem fieldRd_packWord {op rd ra rb rc rk low : Nat} (h : op < 256) (hd : rd < 16) (ha : ra < 16) (hb : rb < 16)
    (hc : rc < 16) (hk : rk * 16 + low < 256) :
    (fieldRd (packWord op rd ra rb rc rk low)).val = rd := by
  simp only [fieldRd, regField, bits, Fin.ofNat, packWord_toNat h hd ha hb hc hk]; omega

theorem fieldRa_packWord {op rd ra rb rc rk low : Nat} (h : op < 256) (hd : rd < 16) (ha : ra < 16) (hb : rb < 16)
    (hc : rc < 16) (hk : rk * 16 + low < 256) :
    (fieldRa (packWord op rd ra rb rc rk low)).val = ra := by
  simp only [fieldRa, regField, bits, Fin.ofNat, packWord_toNat h hd ha hb hc hk]; omega

theorem fieldRb_packWord {op rd ra rb rc rk low : Nat} (h : op < 256) (hd : rd < 16) (ha : ra < 16) (hb : rb < 16)
    (hc : rc < 16) (hk : rk * 16 + low < 256) :
    (fieldRb (packWord op rd ra rb rc rk low)).val = rb := by
  simp only [fieldRb, regField, bits, Fin.ofNat, packWord_toNat h hd ha hb hc hk]; omega

theorem fieldRc_packWord {op rd ra rb rc rk low : Nat} (h : op < 256) (hd : rd < 16) (ha : ra < 16) (hb : rb < 16)
    (hc : rc < 16) (hk : rk * 16 + low < 256) :
    (fieldRc (packWord op rd ra rb rc rk low)).val = rc := by
  simp only [fieldRc, regField, bits, Fin.ofNat, packWord_toNat h hd ha hb hc hk]; omega

theorem fieldRk_packWord {op rd ra rb rc rk : Nat} (h : op < 256) (hd : rd < 16) (ha : ra < 16) (hb : rb < 16)
    (hc : rc < 16) (hk : rk < 16) : (fieldRk (packWord op rd ra rb rc rk 0)).val = rk := by
  have hw := packWord_toNat h hd ha hb hc (rk := rk) (low := 0) (by omega)
  simp only [fieldRk, regField, bits, Fin.ofNat, hw]; omega

theorem fieldImm_packWord {op rd ra rb low : Nat} (h : op < 256) (hd : rd < 16) (ha : ra < 16) (hb : rb < 16)
    (hi : low < 32) : (fieldImm (packWord op rd ra rb 0 0 low)).val = low := by
  have hw := packWord_toNat h hd ha hb (rc := 0) (by omega) (rk := 0) (low := low) (by omega)
  simp only [fieldImm, bits, Fin.ofNat, hw]; omega

theorem fieldLimb_packWord {op rd ra rb low : Nat} (h : op < 256) (hd : rd < 16) (ha : ra < 16) (hb : rb < 16)
    (hi : low < 16) : (fieldLimb (packWord op rd ra rb 0 0 low)).val = low := by
  have hw := packWord_toNat h hd ha hb (rc := 0) (by omega) (rk := 0) (low := low) (by omega)
  simp only [fieldLimb, bits, Fin.ofNat, hw]; omega

end Sys2Proof.Laws

namespace Sys2Proof.Laws.EncodedRow

/-- The word of `i` matches a row of R73 and the row builds `i` from the word's fields. -/
def Statement (i : Instr) : Prop :=
  ∃ r ∈ opcodeTable, encode i &&& r.mask = r.pattern ∧ r.build (encode i) = i

theorem vzero (d : VReg) : Statement (.vzero d) := by
  refine ⟨⟨0x01000000#32, 0xFF0FFFFF#32, fun w => .vzero (fieldRd w)⟩, ?_, ?_, ?_⟩
  · simp [opcodeTable, moveRows]
  · rw [mask_D1, encode, packWord_toNat] <;> first | omega | (simp only [BitVec.toNat_ofNat]; omega)
  · simp only [encode, Instr.vzero.injEq, Fin.ext_iff]
    exact fieldRd_packWord (by omega) (by omega) (by omega) (by omega) (by omega) (by omega)

theorem getq (d : XReg) (a : VReg) (imm : LimbIdx) : Statement (.getq d a imm) := by
  refine ⟨⟨0x02000000#32, 0xFF00FFF0#32, fun w => .getq (fieldRd w) (fieldRa w) (fieldLimb w)⟩, ?_, ?_, ?_⟩
  · simp [opcodeTable, moveRows]
  · rw [mask_limb, encode, packWord_toNat] <;> first | omega | (simp only [BitVec.toNat_ofNat]; omega)
  · simp only [encode, Instr.getq.injEq, Fin.ext_iff]
    exact ⟨fieldRd_packWord (by omega) (by omega) (by omega) (by omega) (by omega) (by omega),
      fieldRa_packWord (by omega) (by omega) (by omega) (by omega) (by omega) (by omega),
      fieldLimb_packWord (by omega) (by omega) (by omega) (by omega) (by omega)⟩

theorem setq (d : VReg) (a : XReg) (imm : LimbIdx) : Statement (.setq d a imm) := by
  refine ⟨⟨0x03000000#32, 0xFF00FFF0#32, fun w => .setq (fieldRd w) (fieldRa w) (fieldLimb w)⟩, ?_, ?_, ?_⟩
  · simp [opcodeTable, moveRows]
  · rw [mask_limb, encode, packWord_toNat] <;> first | omega | (simp only [BitVec.toNat_ofNat]; omega)
  · simp only [encode, Instr.setq.injEq, Fin.ext_iff]
    exact ⟨fieldRd_packWord (by omega) (by omega) (by omega) (by omega) (by omega) (by omega),
      fieldRa_packWord (by omega) (by omega) (by omega) (by omega) (by omega) (by omega),
      fieldLimb_packWord (by omega) (by omega) (by omega) (by omega) (by omega)⟩

theorem mac (d k a b c : XReg) : Statement (.mac d k a b c) := by
  refine ⟨⟨0x10000000#32, 0xFF00000F#32, fun w => .mac (fieldRd w) (fieldRk w) (fieldRa w) (fieldRb w) (fieldRc w)⟩, ?_, ?_, ?_⟩
  · simp [opcodeTable, carryRows]
  · rw [mask_M5, encode, packWord_toNat] <;> first | omega | (simp only [BitVec.toNat_ofNat]; omega)
  · simp only [encode, Instr.mac.injEq, Fin.ext_iff]
    exact ⟨fieldRd_packWord (by omega) (by omega) (by omega) (by omega) (by omega) (by omega),
      fieldRk_packWord (by omega) (by omega) (by omega) (by omega) (by omega) (by omega),
      fieldRa_packWord (by omega) (by omega) (by omega) (by omega) (by omega) (by omega),
      fieldRb_packWord (by omega) (by omega) (by omega) (by omega) (by omega) (by omega),
      fieldRc_packWord (by omega) (by omega) (by omega) (by omega) (by omega) (by omega)⟩

theorem accclr : Statement .accclr := by
  refine ⟨⟨0x11000000#32, 0xFFFFFFFF#32, fun _ => .accclr⟩, ?_, ?_, ?_⟩
  · simp [opcodeTable, carryRows]
  · decide
  · rfl

theorem macc (a b : XReg) : Statement (.macc a b) := by
  refine ⟨⟨0x12000000#32, 0xFFF00FFF#32, fun w => .macc (fieldRa w) (fieldRb w)⟩, ?_, ?_, ?_⟩
  · simp [opcodeTable, carryRows]
  · rw [mask_A2, encode, packWord_toNat] <;> first | omega | (simp only [BitVec.toNat_ofNat]; omega)
  · simp only [encode, Instr.macc.injEq, Fin.ext_iff]
    exact ⟨fieldRa_packWord (by omega) (by omega) (by omega) (by omega) (by omega) (by omega),
      fieldRb_packWord (by omega) (by omega) (by omega) (by omega) (by omega) (by omega)⟩

theorem maccd (a b : XReg) : Statement (.maccd a b) := by
  refine ⟨⟨0x13000000#32, 0xFFF00FFF#32, fun w => .maccd (fieldRa w) (fieldRb w)⟩, ?_, ?_, ?_⟩
  · simp [opcodeTable, carryRows]
  · rw [mask_A2, encode, packWord_toNat] <;> first | omega | (simp only [BitVec.toNat_ofNat]; omega)
  · simp only [encode, Instr.maccd.injEq, Fin.ext_iff]
    exact ⟨fieldRa_packWord (by omega) (by omega) (by omega) (by omega) (by omega) (by omega),
      fieldRb_packWord (by omega) (by omega) (by omega) (by omega) (by omega) (by omega)⟩

theorem accsh (d : XReg) : Statement (.accsh d) := by
  refine ⟨⟨0x14000000#32, 0xFF0FFFFF#32, fun w => .accsh (fieldRd w)⟩, ?_, ?_, ?_⟩
  · simp [opcodeTable, carryRows]
  · rw [mask_D1, encode, packWord_toNat] <;> first | omega | (simp only [BitVec.toNat_ofNat]; omega)
  · simp only [encode, Instr.accsh.injEq, Fin.ext_iff]
    exact fieldRd_packWord (by omega) (by omega) (by omega) (by omega) (by omega) (by omega)

theorem muls (d a b : VReg) : Statement (.muls d a b) := by
  refine ⟨⟨0x20000000#32, 0xFF000FFF#32, fun w => .muls (fieldRd w) (fieldRa w) (fieldRb w)⟩, ?_, ?_, ?_⟩
  · simp [opcodeTable, backendRows]
  · rw [mask_D3, encode, packWord_toNat] <;> first | omega | (simp only [BitVec.toNat_ofNat]; omega)
  · simp only [encode, Instr.muls.injEq, Fin.ext_iff]
    exact ⟨fieldRd_packWord (by omega) (by omega) (by omega) (by omega) (by omega) (by omega),
      fieldRa_packWord (by omega) (by omega) (by omega) (by omega) (by omega) (by omega),
      fieldRb_packWord (by omega) (by omega) (by omega) (by omega) (by omega) (by omega)⟩

theorem sqrs (d a : VReg) : Statement (.sqrs d a) := by
  refine ⟨⟨0x21000000#32, 0xFF00FFFF#32, fun w => .sqrs (fieldRd w) (fieldRa w)⟩, ?_, ?_, ?_⟩
  · simp [opcodeTable, backendRows]
  · rw [mask_D2, encode, packWord_toNat] <;> first | omega | (simp only [BitVec.toNat_ofNat]; omega)
  · simp only [encode, Instr.sqrs.injEq, Fin.ext_iff]
    exact ⟨fieldRd_packWord (by omega) (by omega) (by omega) (by omega) (by omega) (by omega),
      fieldRa_packWord (by omega) (by omega) (by omega) (by omega) (by omega) (by omega)⟩

theorem mulp (d a b : VReg) : Statement (.mulp d a b) := by
  refine ⟨⟨0x30000000#32, 0xFF000FFF#32, fun w => .mulp (fieldRd w) (fieldRa w) (fieldRb w)⟩, ?_, ?_, ?_⟩
  · simp [opcodeTable, backendRows]
  · rw [mask_D3, encode, packWord_toNat] <;> first | omega | (simp only [BitVec.toNat_ofNat]; omega)
  · simp only [encode, Instr.mulp.injEq, Fin.ext_iff]
    exact ⟨fieldRd_packWord (by omega) (by omega) (by omega) (by omega) (by omega) (by omega),
      fieldRa_packWord (by omega) (by omega) (by omega) (by omega) (by omega) (by omega),
      fieldRb_packWord (by omega) (by omega) (by omega) (by omega) (by omega) (by omega)⟩

theorem mulh (d a b : VReg) : Statement (.mulh d a b) := by
  refine ⟨⟨0x31000000#32, 0xFF000FFF#32, fun w => .mulh (fieldRd w) (fieldRa w) (fieldRb w)⟩, ?_, ?_, ?_⟩
  · simp [opcodeTable, backendRows]
  · rw [mask_D3, encode, packWord_toNat] <;> first | omega | (simp only [BitVec.toNat_ofNat]; omega)
  · simp only [encode, Instr.mulh.injEq, Fin.ext_iff]
    exact ⟨fieldRd_packWord (by omega) (by omega) (by omega) (by omega) (by omega) (by omega),
      fieldRa_packWord (by omega) (by omega) (by omega) (by omega) (by omega) (by omega),
      fieldRb_packWord (by omega) (by omega) (by omega) (by omega) (by omega) (by omega)⟩

theorem mulz (d a b : VReg) : Statement (.mulz d a b) := by
  refine ⟨⟨0x40000000#32, 0xFF000FFF#32, fun w => .mulz (fieldRd w) (fieldRa w) (fieldRb w)⟩, ?_, ?_, ?_⟩
  · simp [opcodeTable, backendRows]
  · rw [mask_D3, encode, packWord_toNat] <;> first | omega | (simp only [BitVec.toNat_ofNat]; omega)
  · simp only [encode, Instr.mulz.injEq, Fin.ext_iff]
    exact ⟨fieldRd_packWord (by omega) (by omega) (by omega) (by omega) (by omega) (by omega),
      fieldRa_packWord (by omega) (by omega) (by omega) (by omega) (by omega) (by omega),
      fieldRb_packWord (by omega) (by omega) (by omega) (by omega) (by omega) (by omega)⟩

theorem mulw (d a b : VReg) : Statement (.mulw d a b) := by
  refine ⟨⟨0x41000000#32, 0xFF000FFF#32, fun w => .mulw (fieldRd w) (fieldRa w) (fieldRb w)⟩, ?_, ?_, ?_⟩
  · simp [opcodeTable, backendRows]
  · rw [mask_D3, encode, packWord_toNat] <;> first | omega | (simp only [BitVec.toNat_ofNat]; omega)
  · simp only [encode, Instr.mulw.injEq, Fin.ext_iff]
    exact ⟨fieldRd_packWord (by omega) (by omega) (by omega) (by omega) (by omega) (by omega),
      fieldRa_packWord (by omega) (by omega) (by omega) (by omega) (by omega) (by omega),
      fieldRb_packWord (by omega) (by omega) (by omega) (by omega) (by omega) (by omega)⟩

theorem cvt29 (d a : VReg) : Statement (.cvt29 d a) := by
  refine ⟨⟨0x42000000#32, 0xFF00FFFF#32, fun w => .cvt29 (fieldRd w) (fieldRa w)⟩, ?_, ?_, ?_⟩
  · simp [opcodeTable, backendRows]
  · rw [mask_D2, encode, packWord_toNat] <;> first | omega | (simp only [BitVec.toNat_ofNat]; omega)
  · simp only [encode, Instr.cvt29.injEq, Fin.ext_iff]
    exact ⟨fieldRd_packWord (by omega) (by omega) (by omega) (by omega) (by omega) (by omega),
      fieldRa_packWord (by omega) (by omega) (by omega) (by omega) (by omega) (by omega)⟩

theorem cvt64 (d a : VReg) : Statement (.cvt64 d a) := by
  refine ⟨⟨0x43000000#32, 0xFF00FFFF#32, fun w => .cvt64 (fieldRd w) (fieldRa w)⟩, ?_, ?_, ?_⟩
  · simp [opcodeTable, backendRows]
  · rw [mask_D2, encode, packWord_toNat] <;> first | omega | (simp only [BitVec.toNat_ofNat]; omega)
  · simp only [encode, Instr.cvt64.injEq, Fin.ext_iff]
    exact ⟨fieldRd_packWord (by omega) (by omega) (by omega) (by omega) (by omega) (by omega),
      fieldRa_packWord (by omega) (by omega) (by omega) (by omega) (by omega) (by omega)⟩

theorem tocanp (d a : VReg) : Statement (.tocanp d a) := by
  refine ⟨⟨0x50000000#32, 0xFF00FFFF#32, fun w => .tocanp (fieldRd w) (fieldRa w)⟩, ?_, ?_, ?_⟩
  · simp [opcodeTable, conversionRows]
  · rw [mask_D2, encode, packWord_toNat] <;> first | omega | (simp only [BitVec.toNat_ofNat]; omega)
  · simp only [encode, Instr.tocanp.injEq, Fin.ext_iff]
    exact ⟨fieldRd_packWord (by omega) (by omega) (by omega) (by omega) (by omega) (by omega),
      fieldRa_packWord (by omega) (by omega) (by omega) (by omega) (by omega) (by omega)⟩

theorem fromcanp (d a : VReg) : Statement (.fromcanp d a) := by
  refine ⟨⟨0x51000000#32, 0xFF00FFFF#32, fun w => .fromcanp (fieldRd w) (fieldRa w)⟩, ?_, ?_, ?_⟩
  · simp [opcodeTable, conversionRows]
  · rw [mask_D2, encode, packWord_toNat] <;> first | omega | (simp only [BitVec.toNat_ofNat]; omega)
  · simp only [encode, Instr.fromcanp.injEq, Fin.ext_iff]
    exact ⟨fieldRd_packWord (by omega) (by omega) (by omega) (by omega) (by omega) (by omega),
      fieldRa_packWord (by omega) (by omega) (by omega) (by omega) (by omega) (by omega)⟩

theorem tocanh (d a : VReg) : Statement (.tocanh d a) := by
  refine ⟨⟨0x52000000#32, 0xFF00FFFF#32, fun w => .tocanh (fieldRd w) (fieldRa w)⟩, ?_, ?_, ?_⟩
  · simp [opcodeTable, conversionRows]
  · rw [mask_D2, encode, packWord_toNat] <;> first | omega | (simp only [BitVec.toNat_ofNat]; omega)
  · simp only [encode, Instr.tocanh.injEq, Fin.ext_iff]
    exact ⟨fieldRd_packWord (by omega) (by omega) (by omega) (by omega) (by omega) (by omega),
      fieldRa_packWord (by omega) (by omega) (by omega) (by omega) (by omega) (by omega)⟩

theorem fromcanh (d a : VReg) : Statement (.fromcanh d a) := by
  refine ⟨⟨0x53000000#32, 0xFF00FFFF#32, fun w => .fromcanh (fieldRd w) (fieldRa w)⟩, ?_, ?_, ?_⟩
  · simp [opcodeTable, conversionRows]
  · rw [mask_D2, encode, packWord_toNat] <;> first | omega | (simp only [BitVec.toNat_ofNat]; omega)
  · simp only [encode, Instr.fromcanh.injEq, Fin.ext_iff]
    exact ⟨fieldRd_packWord (by omega) (by omega) (by omega) (by omega) (by omega) (by omega),
      fieldRa_packWord (by omega) (by omega) (by omega) (by omega) (by omega) (by omega)⟩

theorem tocanz (d a : VReg) : Statement (.tocanz d a) := by
  refine ⟨⟨0x54000000#32, 0xFF00FFFF#32, fun w => .tocanz (fieldRd w) (fieldRa w)⟩, ?_, ?_, ?_⟩
  · simp [opcodeTable, conversionRows]
  · rw [mask_D2, encode, packWord_toNat] <;> first | omega | (simp only [BitVec.toNat_ofNat]; omega)
  · simp only [encode, Instr.tocanz.injEq, Fin.ext_iff]
    exact ⟨fieldRd_packWord (by omega) (by omega) (by omega) (by omega) (by omega) (by omega),
      fieldRa_packWord (by omega) (by omega) (by omega) (by omega) (by omega) (by omega)⟩

theorem fromcanz (d a : VReg) : Statement (.fromcanz d a) := by
  refine ⟨⟨0x55000000#32, 0xFF00FFFF#32, fun w => .fromcanz (fieldRd w) (fieldRa w)⟩, ?_, ?_, ?_⟩
  · simp [opcodeTable, conversionRows]
  · rw [mask_D2, encode, packWord_toNat] <;> first | omega | (simp only [BitVec.toNat_ofNat]; omega)
  · simp only [encode, Instr.fromcanz.injEq, Fin.ext_iff]
    exact ⟨fieldRd_packWord (by omega) (by omega) (by omega) (by omega) (by omega) (by omega),
      fieldRa_packWord (by omega) (by omega) (by omega) (by omega) (by omega) (by omega)⟩

theorem tocanprod (d a : VReg) : Statement (.tocanprod d a) := by
  refine ⟨⟨0x56000000#32, 0xFF00FFFF#32, fun w => .tocanprod (fieldRd w) (fieldRa w)⟩, ?_, ?_, ?_⟩
  · simp [opcodeTable, conversionRows]
  · rw [mask_D2, encode, packWord_toNat] <;> first | omega | (simp only [BitVec.toNat_ofNat]; omega)
  · simp only [encode, Instr.tocanprod.injEq, Fin.ext_iff]
    exact ⟨fieldRd_packWord (by omega) (by omega) (by omega) (by omega) (by omega) (by omega),
      fieldRa_packWord (by omega) (by omega) (by omega) (by omega) (by omega) (by omega)⟩

theorem lmullo (d a b : VReg) (imm : LaneIdx) : Statement (.lmullo d a b imm) := by
  refine ⟨⟨0x60000000#32, 0xFF000FE0#32, fun w => .lmullo (fieldRd w) (fieldRa w) (fieldRb w) (fieldImm w)⟩, ?_, ?_, ?_⟩
  · simp [opcodeTable, laneRows]
  · rw [mask_lane3, encode, packWord_toNat] <;> first | omega | (simp only [BitVec.toNat_ofNat]; omega)
  · simp only [encode, Instr.lmullo.injEq, Fin.ext_iff]
    exact ⟨fieldRd_packWord (by omega) (by omega) (by omega) (by omega) (by omega) (by omega),
      fieldRa_packWord (by omega) (by omega) (by omega) (by omega) (by omega) (by omega),
      fieldRb_packWord (by omega) (by omega) (by omega) (by omega) (by omega) (by omega),
      fieldImm_packWord (by omega) (by omega) (by omega) (by omega) (by omega)⟩

theorem lmulhi (d a b : VReg) (imm : LaneIdx) : Statement (.lmulhi d a b imm) := by
  refine ⟨⟨0x61000000#32, 0xFF000FE0#32, fun w => .lmulhi (fieldRd w) (fieldRa w) (fieldRb w) (fieldImm w)⟩, ?_, ?_, ?_⟩
  · simp [opcodeTable, laneRows]
  · rw [mask_lane3, encode, packWord_toNat] <;> first | omega | (simp only [BitVec.toNat_ofNat]; omega)
  · simp only [encode, Instr.lmulhi.injEq, Fin.ext_iff]
    exact ⟨fieldRd_packWord (by omega) (by omega) (by omega) (by omega) (by omega) (by omega),
      fieldRa_packWord (by omega) (by omega) (by omega) (by omega) (by omega) (by omega),
      fieldRb_packWord (by omega) (by omega) (by omega) (by omega) (by omega) (by omega),
      fieldImm_packWord (by omega) (by omega) (by omega) (by omega) (by omega)⟩

theorem lshr (d a : VReg) : Statement (.lshr d a) := by
  refine ⟨⟨0x62000000#32, 0xFF00FFFF#32, fun w => .lshr (fieldRd w) (fieldRa w)⟩, ?_, ?_, ?_⟩
  · simp [opcodeTable, laneRows]
  · rw [mask_D2, encode, packWord_toNat] <;> first | omega | (simp only [BitVec.toNat_ofNat]; omega)
  · simp only [encode, Instr.lshr.injEq, Fin.ext_iff]
    exact ⟨fieldRd_packWord (by omega) (by omega) (by omega) (by omega) (by omega) (by omega),
      fieldRa_packWord (by omega) (by omega) (by omega) (by omega) (by omega) (by omega)⟩

theorem lins (d a : VReg) (imm : LaneIdx) : Statement (.lins d a imm) := by
  refine ⟨⟨0x63000000#32, 0xFF00FFE0#32, fun w => .lins (fieldRd w) (fieldRa w) (fieldImm w)⟩, ?_, ?_, ?_⟩
  · simp [opcodeTable, laneRows]
  · rw [mask_lane2, encode, packWord_toNat] <;> first | omega | (simp only [BitVec.toNat_ofNat]; omega)
  · simp only [encode, Instr.lins.injEq, Fin.ext_iff]
    exact ⟨fieldRd_packWord (by omega) (by omega) (by omega) (by omega) (by omega) (by omega),
      fieldRa_packWord (by omega) (by omega) (by omega) (by omega) (by omega) (by omega),
      fieldImm_packWord (by omega) (by omega) (by omega) (by omega) (by omega)⟩

end Sys2Proof.Laws.EncodedRow
end

