-- ==== Sys2Proof/Laws/Step.lean ====
section
/-! SUPPORT. What one step can do, said once (20_memory.md R51, R58; 60_exceptions.md R238). -/
namespace Sys2Proof.Machine

@[simp] theorem step_idle {s : State} (h : s.pending = []) : step s = .next s := by
  simp [step, presentNext, h]

/-- A step is the first pending transaction, presented. -/
theorem step_eq_transact {s : State} {t : HostTx} {rest : List HostTx} (h : s.pending = t :: rest) :
    step s = transact t (s.taken rest) := by
  simp [step, presentNext, h]

/-- A transaction that asks a halted block to do something: ignored (R238). -/
def HostTx.isIgnoredWhenHalted : HostTx → Bool
  | .hcmd _ => true
  | .hwrx _ _ => true
  | .hwrv _ _ => true
  | .hwracc _ => true
  | .hreset => false
  | .hrdx _ => false
  | .hrdv _ => false
  | .hrdacc => false
  | .hrdstatus => false
  | .hrdbadcmd => false

/-- The answer a host read gets (R51). -/
def HostTx.answer (s : State) : HostTx → Option HostReply
  | .hrdx i => some (.x i (s.readX i))
  | .hrdv i => some (.v i (s.readV i))
  | .hrdacc => some (.acc s.acc)
  | .hrdstatus => some (.status s.readStatus)
  | .hrdbadcmd => some (.badcmd s.badcmd)
  | .hcmd _ => none
  | .hwrx _ _ => none
  | .hwrv _ _ => none
  | .hwracc _ => none
  | .hreset => none

/-- All that a transaction can do to the state. -/
inductive TxEffect (s : State) : HostTx → State → Prop
  | reset : TxEffect s .hreset s.hostReset
  | ignored (t : HostTx) (ht : t.isIgnoredWhenHalted = true) (hs : s.halted = true) : TxEffect s t s
  | command (w : Cmd) (i : Instr) (u : State) (hs : s.halted = false) (hd : decode w = .command i)
      (he : exec i s = .next u) : TxEffect s (.hcmd w) u
  | illegal (w : Cmd) (why : IllegalReason) (hs : s.halted = false) (hd : decode w = .illegal why) :
      TxEffect s (.hcmd w) (s.raise .illegalCommand w)
  | writesX (i : XReg) (val : Word) (hs : s.halted = false) : TxEffect s (.hwrx i val) (s.writeX i val)
  | writesV (i : VReg) (val : Wide) (hs : s.halted = false) : TxEffect s (.hwrv i val) (s.writeV i val)
  | writesAcc (val : Acc) (hs : s.halted = false) : TxEffect s (.hwracc val) (s.writeAcc val)
  | answers (t : HostTx) (r : HostReply) (ht : t.answer s = some r) : TxEffect s t (s.reply r)

/-- Every transaction answers a next state, reached in one of these ways. -/
theorem transact_effect (t : HostTx) (s : State) : ∃ u, transact t s = .next u ∧ TxEffect s t u := by
  cases t with
  | hreset => exact ⟨_, rfl, .reset⟩
  | hcmd w =>
    cases hs : s.halted with
    | true => exact ⟨s, by simp [transact, hostCommand, hs], .ignored _ rfl hs⟩
    | false =>
      cases hd : decode w with
      | command i =>
        obtain ⟨u, hu, -⟩ := exec_effect i s
        exact ⟨u, by simp [transact, hostCommand, hs, hd, hu], .command w i u hs hd hu⟩
      | illegal why => exact ⟨_, by simp only [transact, hostCommand, hs, hd]; rfl, .illegal w why hs hd⟩
  | hwrx i val =>
    cases hs : s.halted with
    | true => exact ⟨s, by simp [transact, State.unlessHalted, hs], .ignored _ rfl hs⟩
    | false => exact ⟨_, by simp only [transact, State.unlessHalted, hs]; rfl, .writesX i val hs⟩
  | hwrv i val =>
    cases hs : s.halted with
    | true => exact ⟨s, by simp [transact, State.unlessHalted, hs], .ignored _ rfl hs⟩
    | false => exact ⟨_, by simp only [transact, State.unlessHalted, hs]; rfl, .writesV i val hs⟩
  | hwracc val =>
    cases hs : s.halted with
    | true => exact ⟨s, by simp [transact, State.unlessHalted, hs], .ignored _ rfl hs⟩
    | false => exact ⟨_, by simp only [transact, State.unlessHalted, hs]; rfl, .writesAcc val hs⟩
  | hrdx i => exact ⟨_, rfl, .answers _ _ rfl⟩
  | hrdv i => exact ⟨_, rfl, .answers _ _ rfl⟩
  | hrdacc => exact ⟨_, rfl, .answers _ _ rfl⟩
  | hrdstatus => exact ⟨_, rfl, .answers _ _ rfl⟩
  | hrdbadcmd => exact ⟨_, rfl, .answers _ _ rfl⟩

/-- The inversion of a step: idle, or the first pending transaction had its effect. -/
theorem step_inv {s u : State} (h : step s = .next u) :
    (s.pending = [] ∧ u = s) ∨ ∃ t rest, s.pending = t :: rest ∧ TxEffect (s.taken rest) t u := by
  cases hp : s.pending with
  | nil =>
    rw [step_idle hp] at h
    cases h
    exact .inl ⟨rfl, rfl⟩
  | cons t rest =>
    obtain ⟨v, hv, he⟩ := transact_effect t (s.taken rest)
    rw [step_eq_transact hp, hv] at h
    cases h
    exact .inr ⟨t, rest, rfl, he⟩

/-- No transaction changes what the host has still to give (R26). -/
theorem TxEffect.pending {s u : State} {t : HostTx} (h : TxEffect s t u) : u.pending = s.pending := by
  cases h with
  | command w i u hs hd he => exact (exec_inv he).hostKept.1
  | _ => rfl

end Sys2Proof.Machine
end

