-- ==== Sys2Proof/Tests/Slice0.lean ====
section
/-! SUPPORT. The model's own tests: ill-formed terms, words written out from the spec's encodings, one step of every
command on values the spec works out (95_test_vectors.md, 96_test_vectors_control.md), and, for every statement with
hypotheses, a state that meets them. -/
namespace Sys2Proof.Tests

set_option Elab.async false

open Sys2Proof.Machine Sys2Proof.Safety

/-! ### Helpers -/

/-- A register from its lanes, lane 0 first, the rest 0. -/
def dReg (l : List Nat) : Wide := ofLanes fun k => BitVec.ofNat 32 (l.getD k 0)

/-- A register from its limbs, limb 0 first, the rest 0. -/
def qReg (l : List Nat) : Wide := ofLimbs fun k => BitVec.ofNat 64 (l.getD k 0)

/-- A half-packed register from its digits, slot 0 first. -/
def hReg (l : List Nat) : Wide := ofLanes fun j => if j % 2 = 0 then BitVec.ofNat 32 (l.getD (j / 2) 0) else 0

/-- A register of 32 equal lanes. -/
def allLanes (n : Nat) : Wide := dReg (List.replicate 32 n)

/-- `s` with X registers written. -/
def withX (l : List (XReg × Nat)) (s : State) : State := l.foldl (fun s p => s.writeX p.1 (BitVec.ofNat 64 p.2)) s

/-- `s` with V registers written. -/
def withV (l : List (VReg × Wide)) (s : State) : State := l.foldl (fun s p => s.writeV p.1 p.2) s

/-- ACC from its three limbs, upper first as the vectors write it. -/
def accOf (a2 a1 a0 : Nat) : Acc := BitVec.ofNat 192 (a2 * 2 ^ 128 + a1 * 2 ^ 64 + a0)

/-- The state right after reset with the host's transactions given. -/
def given (l : List HostTx) : State := { State.reset with pending := l }

/-- The next state of one step that runs the word. -/
def ran (w : Cmd) (s : State) : Option State :=
  match step (s.withFetchWord 32 w.toNat) with
  | .next t => some t
  | .fault _ => none
  | .refused _ => none

/-- The largest limb, `2^64 - 1`. -/
abbrev maxLimb : Nat := 0xFFFFFFFFFFFFFFFF

/-- Twelve lanes at maximum: the largest valid layout P or Z element. -/
abbrev maxP : Wide := dReg (List.replicate 12 0xFFFFFFFF)

/-- Twelve digits at maximum: the largest valid layout H element. -/
abbrev maxH : Wide := hReg (List.replicate 12 0xFFFFFF)

/-- A block halted by `MULW v0, v1, v2` (V10.1). -/
abbrev haltedState : State := State.reset.raise .notImplemented 0x41012000#32

/-! ### WellFormed: an ill-formed term for its one check -/

theorem test_wf_refuses_mac_same_register : (Instr.mac 5 5 1 2 3).wf = false := by decide
theorem test_wf_refuses_mac_same_register_15 : (Instr.mac 15 15 15 15 15).wf = false := by decide
theorem test_wf_accepts_mac_carry_as_source : (Instr.mac 0 1 1 1 1).wf = true := by decide

/-! ### Decoding: words of 96_test_vectors_control.md V1, from R71 and R73 -/

theorem test_decode_vzero : decode 0b00000001011100000000000000000000#32 = .command (.vzero 7) := by decide
theorem test_decode_getq : decode 0b00000010001100000000000000000001#32 = .command (.getq 3 0 1) := by decide
theorem test_decode_setq : decode 0b00000011000100100000000000000010#32 = .command (.setq 1 2 2) := by decide
theorem test_decode_mac : decode 0b00010000111111111111111111100000#32 = .command (.mac 15 14 15 15 15) := by decide
theorem test_decode_accclr : decode 0b00010001000000000000000000000000#32 = .command .accclr := by decide
theorem test_decode_macc : decode 0b00010010000000010010000000000000#32 = .command (.macc 1 2) := by decide
theorem test_decode_maccd : decode 0b00010011000011110000000000000000#32 = .command (.maccd 15 0) := by decide
theorem test_decode_accsh : decode 0b00010100100100000000000000000000#32 = .command (.accsh 9) := by decide
theorem test_decode_muls : decode 0b00100000000000010010000000000000#32 = .command (.muls 0 1 2) := by decide
theorem test_decode_sqrs : decode 0b00100001000000010000000000000000#32 = .command (.sqrs 0 1) := by decide
theorem test_decode_mulp : decode 0b00110000010000100011000000000000#32 = .command (.mulp 4 2 3) := by decide
theorem test_decode_mulh : decode 0b00110001000000010010000000000000#32 = .command (.mulh 0 1 2) := by decide
theorem test_decode_mulz : decode 0b01000000000000010010000000000000#32 = .command (.mulz 0 1 2) := by decide
theorem test_decode_mulw : decode 0b01000001000000010010000000000000#32 = .command (.mulw 0 1 2) := by decide
theorem test_decode_cvt29 : decode 0b01000010000100000000000000000000#32 = .command (.cvt29 1 0) := by decide
theorem test_decode_cvt64 : decode 0b01000011000100000000000000000000#32 = .command (.cvt64 1 0) := by decide
theorem test_decode_tocanp : decode 0b01010000000100000000000000000000#32 = .command (.tocanp 1 0) := by decide
theorem test_decode_fromcanp : decode 0b01010001001000000000000000000000#32 = .command (.fromcanp 2 0) := by decide
theorem test_decode_tocanh : decode 0b01010010001101000000000000000000#32 = .command (.tocanh 3 4) := by decide
theorem test_decode_fromcanh : decode 0b01010011010101100000000000000000#32 = .command (.fromcanh 5 6) := by decide
theorem test_decode_tocanz : decode 0b01010100011110000000000000000000#32 = .command (.tocanz 7 8) := by decide
theorem test_decode_fromcanz : decode 0b01010101100110100000000000000000#32 = .command (.fromcanz 9 10) := by decide
theorem test_decode_tocanprod : decode 0b01010110101111000000000000000000#32 = .command (.tocanprod 11 12) := by decide
theorem test_decode_lmullo : decode 0b01100000000100100011000000000000#32 = .command (.lmullo 1 2 3 0) := by decide
theorem test_decode_lmulhi : decode 0b01100001000100100011000000011111#32 = .command (.lmulhi 1 2 3 31) := by decide
theorem test_decode_lshr : decode 0b01100010011001100000000000000000#32 = .command (.lshr 6 6) := by decide
theorem test_decode_lins : decode 0b01100011001101000000000000010001#32 = .command (.lins 3 4 17) := by decide

/-- The unassigned opcodes of V1, and the ends of every range R75 lists. -/
theorem test_decode_unassigned :
    [0x00000000#32, 0xFFFFFFFF#32, 0x04000000#32, 0x0F000000#32, 0x15000000#32, 0x1F000000#32, 0x22000000#32,
      0x2F000000#32, 0x32012000#32, 0x3F000000#32, 0x44000000#32, 0x4F000000#32, 0x57100000#32, 0x5F000000#32,
      0x64000000#32, 0x70000000#32].all (fun w => decode w == .illegal .unassignedOpcode) = true := by decide +kernel

/-- The words of V1 with a must-be-zero bit set. -/
theorem test_decode_must_be_zero :
    [0x11000001#32, 0x11100000#32, 0x01700001#32, 0x01710000#32, 0x02300011#32, 0x02301001#32, 0x03120012#32,
      0x10012341#32, 0x12112000#32, 0x13012001#32, 0x14900100#32, 0x20012001#32, 0x20012800#32,
      0x21011000#32].all (fun w => decode w == .illegal .mustBeZeroBit) = true := by decide +kernel

theorem test_decode_must_be_zero_vector :
    [0x30012010#32, 0x31012100#32, 0x40012002#32, 0x41012001#32, 0x42100001#32, 0x50108000#32, 0x56100001#32,
      0x60123020#32, 0x61123800#32, 0x62660001#32, 0x63340020#32,
      0x63341011#32].all (fun w => decode w == .illegal .mustBeZeroBit) = true := by decide +kernel

/-- The MAC words of V1 with `rd = rk`. -/
theorem test_decode_mac_same_register :
    [0x10012300#32, 0x10512350#32, 0x10000000#32].all (fun w => decode w == .illegal .macSameRegister) = true := by
  decide

theorem test_encode_sample :
    encode (.mac 0 4 1 2 3) = 0x10012340#32 ∧ encode (.lmulhi 1 2 3 31) = 0x6112301F#32 ∧
      encode (.setq 1 2 2) = 0x03120002#32 := by decide

theorem test_decodeTableWord : decodeTableWord 32 0x63340011 = some (.lins 3 4 17) := by decide
theorem test_decodeTableWord_illegal : decodeTableWord 32 0x10012300 = none := by decide

/-! ### Move (V9) -/

theorem test_vzero :
    ((ran 0x01700000#32 State.reset).map fun t => (t.readV 7, t.isWritten (.v 7))) = some (0, true) := by decide +kernel

theorem test_getq_top :
    ((ran 0x0230000F#32 (withV [(0, dReg ((List.range 32).map (· + 1)))] State.reset)).map fun t => t.readX 3) =
      some 0x200000001F#64 := by decide +kernel

theorem test_setq :
    ((ran 0x03120002#32 (withX [(2, 4)] (withV [(1, 0)] State.reset))).map fun t => t.readV 1) =
      some (qReg [0, 0, 4]) := by decide +kernel

theorem test_setq_top :
    ((ran 0x0312000F#32 (withX [(2, 0x1122334455667788)] (withV [(1, allLanes 0xFFFFFFFF)] State.reset))).map
      fun t => (lane (t.readV 1) 29, lane (t.readV 1) 30, lane (t.readV 1) 31)) =
      some (0xFFFFFFFF#32, 0x55667788#32, 0x11223344#32) := by decide +kernel

/-! ### Carry chain (V2, V3) -/

/-- V2.8. -/
theorem test_mac_boundary :
    ((ran 0x10012340#32 (withX [(1, maxLimb - 1), (2, maxLimb - 1), (3, maxLimb - 1), (4, maxLimb - 1)]
      State.reset)).map fun t => (t.readX 0, t.readX 4)) = some (0#64, 0xFFFFFFFFFFFFFFFE#64) := by decide +kernel

/-- The first aliasing case of V2: all sources are read before either write. -/
theorem test_mac_alias :
    ((ran 0x10111140#32 (withX [(1, 3), (4, 10)] State.reset)).map fun t => (t.readX 1, t.readX 4)) =
      some (0x16#64, 0#64) := by decide +kernel

/-- V3.1. -/
theorem test_accclr :
    ((ran 0x11000000#32 State.reset).map fun t => (t.acc, t.isWritten .acc)) = some (0, true) := by decide +kernel

/-- V3.2. -/
theorem test_macc :
    ((ran 0x12012000#32 (withX [(1, maxLimb), (2, maxLimb)] (State.reset.writeAcc 0))).map fun t => t.acc) =
      some (accOf 0 0xFFFFFFFFFFFFFFFE 1) := by decide +kernel

/-- V3.8: the sum is exactly `2^192`. -/
theorem test_macc_overflow :
    ((ran 0x12012000#32 (withX [(1, 1), (2, 1)] (State.reset.writeAcc (accOf maxLimb maxLimb maxLimb)))).map
      fun t => (t.acc, t.readStatus, t.badcmd, t.err)) =
      some (accOf maxLimb maxLimb maxLimb, 3#32, 0x12012000#32, true) := by decide +kernel

/-- V3.3. -/
theorem test_maccd :
    ((ran 0x13012000#32 (withX [(1, maxLimb), (2, maxLimb)] (State.reset.writeAcc 0))).map fun t => t.acc) =
      some (accOf 1 0xFFFFFFFFFFFFFFFC 2) := by decide +kernel

/-- V3.10. -/
theorem test_maccd_overflow :
    ((ran 0x13012000#32 (withX [(1, 1), (2, 1)] (State.reset.writeAcc (accOf maxLimb maxLimb (maxLimb - 1))))).map
      fun t => (t.acc, t.readStatus, t.badcmd)) =
      some (accOf maxLimb maxLimb (maxLimb - 1), 3#32, 0x13012000#32) := by decide +kernel

/-- V3.7. -/
theorem test_accsh :
    ((ran 0x14500000#32 (State.reset.writeAcc (accOf maxLimb maxLimb maxLimb))).map fun t => (t.readX 5, t.acc)) =
      some (0xFFFFFFFFFFFFFFFF#64, accOf 0 maxLimb maxLimb) := by decide +kernel

/-! ### Scalar backend (V4, the source's scenarios T1, T3) -/

/-- V4.3. -/
theorem test_muls_largest :
    ((ran 0x20012000#32 (withV [(1, qReg (List.replicate 6 maxLimb)), (2, qReg (List.replicate 6 maxLimb))]
      State.reset)).map fun t => t.readV 0) =
      some (qReg [1, 0, 0, 0, 0, 0, 0xFFFFFFFFFFFFFFFE, maxLimb, maxLimb, maxLimb, maxLimb, maxLimb]) := by
  decide +kernel

/-- V4.u: upper limbs are not read, the destination is both sources. -/
theorem test_muls_upper_limbs :
    ((ran 0x20111000#32 (withV [(1, qReg ([3, 0, 0, 0, 0, 0] ++ List.replicate 10 maxLimb))] State.reset)).map
      fun t => t.readV 1) = some (qReg [9]) := by decide +kernel

/-- T1 through SQRS. -/
theorem test_sqrs :
    ((ran 0x21010000#32 (withV [(1, qReg [2, 2])] State.reset)).map fun t => t.readV 0) =
      some (qReg [4, 8, 4]) := by decide +kernel

/-! ### Vector backends (V5, V6) -/

/-- V5.3. -/
theorem test_mulp_largest :
    ((ran 0x30012000#32 (withV [(1, maxP), (2, maxP)] State.reset)).map fun t => t.readV 0) =
      some (dReg ([1] ++ List.replicate 11 0 ++ [0xFFFFFFFE] ++ List.replicate 11 0xFFFFFFFF)) := by decide +kernel

/-- V5.x: no fault, only the destination written, the value left open. -/
theorem test_mulp_invalid :
    ((ran 0x30012000#32 (withV [(1, dReg (List.replicate 13 1)), (2, dReg [3])] State.reset)).map
      fun t => (t.readStatus, t.isWritten (.v 0), t.draws)) = some (0#32, true, 1) := by decide +kernel

/-- V6.3, V6.1 by the digits of a source. -/
theorem test_mulh :
    ((ran 0x31012000#32 (withV [(1, hReg [3, 5]), (2, hReg [7])] State.reset)).map fun t => t.readV 0) =
      some (dReg [0x15, 0x23]) := by decide +kernel

/-- V6.4. -/
theorem test_mulh_top_slot :
    ((ran 0x31012000#32 (withV [(1, hReg (List.replicate 11 0 ++ [0xFFFFFF])),
      (2, hReg (List.replicate 11 0 ++ [0xFFFFFF]))] State.reset)).map fun t => t.readV 0) =
      some (dReg (List.replicate 22 0 ++ [0xFE000001, 0xFFFF])) := by decide +kernel

/-- V5.i with MULZ: lanes above the layout are not read. -/
theorem test_mulz :
    ((ran 0x40012000#32 (withV [(1, dReg (List.replicate 12 1 ++ List.replicate 4 0 ++ List.replicate 16 7)),
      (2, dReg [3])] State.reset)).map fun t => t.readV 0) = some (dReg (List.replicate 12 3)) := by decide +kernel

/-- V10.1. -/
theorem test_mulw :
    ((ran 0x41012000#32 State.reset).map fun t => (t.readStatus, t.badcmd, t.err, t.isWritten (.v 0))) =
      some (2#32, 0x41012000#32, true, false) := by decide +kernel

/-- V10.3. -/
theorem test_cvt29 :
    ((ran 0x42100000#32 State.reset).map fun t => (t.readStatus, t.badcmd)) = some (2#32, 0x42100000#32) := by
  decide +kernel

/-- V10.3. -/
theorem test_cvt64 :
    ((ran 0x43100000#32 State.reset).map fun t => (t.readStatus, t.badcmd)) = some (2#32, 0x43100000#32) := by
  decide +kernel

/-! ### Conversions (V7) -/

/-- V7.2: an invalid source, its padding and upper lanes not read. -/
theorem test_tocanp :
    ((ran 0x50100000#32 (withV [(0, dReg (List.replicate 16 0xFFFFFFFF ++ List.replicate 16 5))] State.reset)).map
      fun t => t.readV 1) = some (qReg (List.replicate 6 maxLimb)) := by decide +kernel

/-- V7.3. -/
theorem test_fromcanp :
    ((ran 0x51100000#32 (withV [(0, qReg [0x200000001])] State.reset)).map fun t => t.readV 1) =
      some (dReg [1, 2]) := by decide +kernel

/-- V7.9: even lanes taken as full digits, odd lanes not read. -/
theorem test_tocanh :
    ((ran 0x52100000#32 (withV [(0, dReg [0x11111111, 0x22222222, 0x33333333, 0x44444444])] State.reset)).map
      fun t => t.readV 1) = some (qReg [0x3333333311111111]) := by decide +kernel

/-- V7.11. -/
theorem test_fromcanh_largest :
    ((ran 0x53100000#32 (withV [(0, qReg (List.replicate 6 0x00FFFFFF00FFFFFF))] State.reset)).map
      fun t => t.readV 1) = some maxH := by decide +kernel

/-- V7.13: half 11 is `2^24`. -/
theorem test_fromcanh_does_not_fit :
    ((ran 0x53100000#32 (withV [(0, qReg [0, 0, 0, 0, 0, 0x100000000000000])] State.reset)).map
      fun t => (t.readStatus, t.isWritten (.v 1), t.draws)) = some (0#32, true, 1) := by decide +kernel

/-- V7.5. -/
theorem test_tocanz :
    ((ran 0x54100000#32 (withV [(0, dReg [1, 2, 3, 4])] State.reset)).map fun t => t.readV 1) =
      some (qReg [0x200000001, 0x400000003]) := by decide +kernel

/-- V7.6. -/
theorem test_fromcanz :
    ((ran 0x55100000#32 (withV [(0, qReg (List.replicate 6 maxLimb))] State.reset)).map fun t => t.readV 1) =
      some maxP := by decide +kernel

/-- V7.16: lanes 24 to 31 are not read. -/
theorem test_tocanprod :
    ((ran 0x56100000#32 (withV [(0, dReg ((List.range 32).map (· + 1)))] State.reset)).map fun t => t.readV 1) =
      some (dReg ((List.range 24).map (· + 1))) := by decide +kernel

/-! ### Lane primitives (V8) -/

/-- V8.1. -/
theorem test_lmullo :
    ((ran 0x60012003#32 (withV [(1, dReg [0, 0, 0, 0xFFFFFFFF]), (2, dReg [0xFFFFFFFF, 2])] State.reset)).map
      fun t => t.readV 0) = some (dReg [1, 0xFFFFFFFE]) := by decide +kernel

/-- V8.6: one register three times, lane 1 read before the write. -/
theorem test_lmullo_alias :
    ((ran 0x60111001#32 (withV [(1, dReg [6, 7])] State.reset)).map fun t => t.readV 1) =
      some (dReg [0x2A, 0x31]) := by decide +kernel

/-- V8.4. -/
theorem test_lmulhi_top :
    ((ran 0x6101201F#32 (withV [(1, dReg (List.replicate 31 0 ++ [0x10001])), (2, allLanes 0x10000)] State.reset)).map
      fun t => t.readV 0) = some (allLanes 1) := by decide +kernel

/-- V8.8. -/
theorem test_lshr :
    ((ran 0x62110000#32 (withV [(1, dReg ((List.range 32).map (· + 1)))] State.reset)).map fun t => t.readV 1) =
      some (dReg ((List.range 31).map (· + 2))) := by decide +kernel

/-- V8.11. -/
theorem test_lins :
    ((ran 0x63330002#32 (withV [(3, dReg [5, 6, 7])] State.reset)).map fun t => t.readV 3) =
      some (dReg [5, 6, 5]) := by decide +kernel

/-! ### Reference datapaths (V4.11, the trace of V11) -/

/-- The slots of the short trace of V11 after the adds of rounds 1 and 2. -/
theorem test_mulp_trace :
    (slotsInRound (rowP (dReg [0xFFFFFFFF, 0xFFFFFFFF]) (dReg [0xFFFFFFFF, 0xFFFFFFFF])) 1).take 4 =
        [0x100000000, 0x1FFFFFFFD, 0xFFFFFFFE, 0] ∧
      (slotsInRound (rowP (dReg [0xFFFFFFFF, 0xFFFFFFFF]) (dReg [0xFFFFFFFF, 0xFFFFFFFF])) 2).take 4 =
        [0x1FFFFFFFE, 0xFFFFFFFE, 0, 0] := by decide +kernel

theorem test_operand_scan : operandScan (qReg [2, 2]) (qReg [2, 2]) = qReg [4, 8, 4] := by decide +kernel
theorem test_comba : combaProduct (qReg [2, 2]) (qReg [2, 2]) = qReg [4, 8, 4] := by decide +kernel
theorem test_comba_square : combaSquare (qReg [2, 2]) = qReg [4, 8, 4] := by decide +kernel

/-! ### Witnesses: what the hypotheses of the statements ask can be had -/

theorem witness_DecodeOfEncodeGivesCommand :
    (Instr.mac 0 15 0 0 0).wf = true ∧ (Instr.lins 15 15 31).wf = true ∧ (Instr.getq 15 15 15).wf = true := by
  decide +kernel

theorem witness_CommandHasOneWord : decode 0x6300001F#32 = .command (.lins 0 0 31) := by decide +kernel

/-- A word for each format, most with the highest or lowest must-be-zero bit alone set. -/
theorem witness_MustBeZeroBitRaisesIllegalCommand :
    (given [.hcmd 0x11000001#32]).pending = .hcmd 0x11000001#32 :: [] ∧
      (given [.hcmd 0x11000001#32]).halted = false ∧
      MustBeZeroBroken 0x11000001#32 ∧ MustBeZeroBroken 0x01080000#32 ∧ MustBeZeroBroken 0x50108000#32 ∧
      MustBeZeroBroken 0x20012800#32 ∧ MustBeZeroBroken 0x12100000#32 ∧ MustBeZeroBroken 0x10012348#32 ∧
      MustBeZeroBroken 0x63340020#32 ∧ MustBeZeroBroken 0x02300011#32 ∧ MustBeZeroBroken 0x60123800#32 := by
  refine ⟨rfl, by decide, ?_, ?_, ?_, ?_, ?_, ?_, ?_, ?_, ?_⟩ <;> (unfold MustBeZeroBroken; decide)

/-- The ends of R75's ranges, and MAC with the lowest and highest register twice. -/
theorem witness_UnassignedOpcodeRaisesIllegalCommand :
    (given [.hcmd 0x04000000#32]).pending = .hcmd 0x04000000#32 :: [] ∧
      (given [.hcmd 0x04000000#32]).halted = false ∧
      OpcodeUnassigned 0x04000000#32 ∧ OpcodeUnassigned 0x0F000000#32 ∧ OpcodeUnassigned 0x15000000#32 ∧
      OpcodeUnassigned 0x57000000#32 ∧ OpcodeUnassigned 0x64000000#32 ∧
      MacSameRegister 0x10000000#32 ∧ MacSameRegister 0x10FFFFF0#32 := by
  refine ⟨rfl, by decide, ?_, ?_, ?_, ?_, ?_, ?_, ?_⟩ <;>
    (first | (unfold OpcodeUnassigned; decide) | (unfold MacSameRegister; decide))

theorem witness_StepExecutesDecodedCommand :
    (given [.hcmd 0x01700000#32, .hreset]).pending = .hcmd 0x01700000#32 :: [.hreset] ∧
      (given [.hcmd 0x01700000#32, .hreset]).halted = false ∧ decode 0x01700000#32 = .command (.vzero 7) := by
  decide +kernel

/-- A halted block with each transaction but HRESET pending. -/
theorem witness_HaltedBlockOnlyAnswersReads :
    haltedState.halted = true ∧
      [HostTx.hcmd 0x11000000#32, .hwrx 15 9, .hwrv 15 9, .hwracc 9, .hrdx 15, .hrdv 15, .hrdacc, .hrdstatus,
        .hrdbadcmd].all (fun t => { haltedState with pending := [t] }.halted && t != .hreset) = true := by
  decide +kernel

theorem witness_HostWriteStoresWholeRegister :
    (given [.hwrx 15 9]).pending = .hwrx 15 9 :: [] ∧ (given [.hwrv 15 9]).pending = .hwrv 15 9 :: [] ∧
      (given [.hwracc 9]).pending = .hwracc 9 :: [] ∧ (given [.hwracc 9]).halted = false := by
  decide +kernel

theorem witness_HostReadAnswersAndChangesNothing :
    (given [.hrdx 15]).pending = .hrdx 15 :: [] ∧ (given [.hrdv 15]).pending = .hrdv 15 :: [] ∧
      (given [.hrdacc]).pending = .hrdacc :: [] ∧ (given [.hrdstatus]).pending = .hrdstatus :: [] ∧
      (given [.hrdbadcmd]).pending = .hrdbadcmd :: [] := by decide +kernel

/-- HRESET to a block halted with a register written; another transaction to a block with one. -/
theorem witness_ResetClearsFaultAndWrittenBits :
    (∀ rest, (withX [(1, 7)] (given [.hrdx 1])).pending ≠ .hreset :: rest) ∧
      step (withX [(1, 7)] (given [.hrdx 1])) = .next ((withX [(1, 7)] (given [])).reply (.x 1 7)) ∧
      { withX [(1, 7)] haltedState with pending := [.hreset] }.pending = .hreset :: [] ∧
      { withX [(1, 7)] haltedState with pending := [.hreset] }.isWritten (.x 1) = true ∧
      { withX [(1, 7)] haltedState with pending := [.hreset] }.halted = true :=
  ⟨fun _ h => by simp [given, withX, State.writeX] at h, rfl, by decide +kernel⟩

theorem witness_IdleBlockHoldsItsState : haltedState.pending = [] := by decide +kernel

/-- One word for each of the three faults. -/
theorem witness_FaultEntryRecordsCauseAndWord :
    ((ran 0x00000000#32 State.reset).map fun t => (t.halted, t.readStatus)) = some (true, 1#32) ∧
      ((ran 0x43100000#32 State.reset).map fun t => (t.halted, t.readStatus)) = some (true, 2#32) ∧
      ((ran 0x12012000#32 (withX [(1, 1), (2, 1)] (State.reset.writeAcc (accOf maxLimb maxLimb maxLimb)))).map
        fun t => (t.halted, t.readStatus)) = some (true, 3#32) := by decide +kernel

/-- The three ways: nothing happens to STATUS, HRESET, a fault. -/
theorem witness_StatusChangesOnlyByFaultOrReset :
    step (given []) = .next (given []) ∧
      step { haltedState with pending := [.hreset] } = .next State.reset ∧
      step (given [.hcmd 0x41012000#32]) = .next haltedState := ⟨rfl, rfl, rfl⟩

/-- A state for each cause, the sum exactly `2^192` for ACC_OVERFLOW. -/
theorem witness_StepKeepsFaultRecordExplained :
    FaultRecorded State.reset ∧ FaultRecorded (State.reset.raise .illegalCommand 0x00000000#32) ∧
      FaultRecorded haltedState ∧
      FaultRecorded ((withX [(1, 1), (2, 1)] (State.reset.writeAcc (accOf maxLimb maxLimb maxLimb))).raise
        .accOverflow 0x12012000#32) ∧
      step haltedState = .next haltedState := by
  refine ⟨.inl (by decide), .inr (.inl ⟨by decide, .unassignedOpcode, by decide⟩),
    .inr (.inr (.inl ⟨by decide, .inl ⟨0, 1, 2, by decide⟩⟩)),
    .inr (.inr (.inr ⟨by decide, .inl ⟨1, 2, by decide, by decide⟩⟩)), rfl⟩

/-- A command that writes, and one that faults. -/
theorem witness_CommandWritesOnlyItsWriteSet :
    exec (.accsh 5) State.reset = .next ((State.reset.writeX 5 0).writeAcc 0) ∧
      exec (.mulw 0 1 2) State.reset = .next haltedState := ⟨rfl, rfl⟩

/-- Two states that differ in all but the read set. -/
theorem witness_ResultsDependOnlyOnReadSet :
    (∀ r ∈ reads (.lshr 0 1), haltedState.contents r = (withX [(0, 5)] State.reset).contents r) ∧
      haltedState.draws = (withX [(0, 5)] State.reset).draws ∧ haltedState ≠ withX [(0, 5)] State.reset := by
  decide +kernel

/-- A host read of a written and of an unwritten register. -/
theorem witness_CheckedStepStopsAtUnwrittenRead :
    (∀ r ∈ stepReads (withX [(15, 5)] (given [.hrdx 15])),
        (withX [(15, 5)] (given [.hrdx 15])).isWritten r = true) ∧
      stepReads (withX [(15, 5)] (given [.hrdx 15])) = [.x 15] ∧
      ∃ r ∈ stepReads (given [.hrdx 15]), (given [.hrdx 15]).isWritten r = false := by decide +kernel

/-- Two states that differ in an unwritten register only. -/
theorem witness_CheckedStepsIgnoreUnwrittenContents :
    SameWritten (given [.hcmd 0x11000000#32]) { given [.hcmd 0x11000000#32] with acc := 7 } ∧
      checkedStep (given [.hcmd 0x11000000#32]) = .next ((given []).writeAcc 0) ∧
      given [.hcmd 0x11000000#32] ≠ { given [.hcmd 0x11000000#32] with acc := 7 } := by
  refine ⟨⟨fun r => by cases r <;> rfl, fun r h => ?_, rfl, rfl, rfl, rfl, rfl⟩, rfl, fun h => ?_⟩
  cases r with
  | x i => rfl
  | v i => rfl
  | acc => cases h
  exact absurd (congrArg State.acc h) (by decide)

theorem witness_MacLosesNoCarry : (0 : XReg) ≠ 15 := by decide

theorem witness_MacWithSameResultAndCarryFaults : State.reset.halted = false := by decide

/-- x1 = x2 = 1 and ACC given. -/
abbrev accState (a : Acc) : State := withX [(1, 1), (2, 1)] (State.reset.writeAcc a)

/-- ACC at `2^192 - 1`, `2^192 - 2` and `2^192 - 3`. -/
abbrev accFull : State := accState (accOf maxLimb maxLimb maxLimb)
abbrev accLess1 : State := accState (accOf maxLimb maxLimb (maxLimb - 1))
abbrev accLess2 : State := accState (accOf maxLimb maxLimb (maxLimb - 2))

/-- Both clauses at the boundary: the sum `2^192 - 1` (V3.9), and `2^192` (V3.8). -/
theorem witness_MaccAddsProductOrFaults :
    accLess1.acc.toNat + (accLess1.readX 1).toNat * (accLess1.readX 2).toNat = 2 ^ 192 - 1 ∧
      accFull.halted = false ∧ accFull.acc.toNat + (accFull.readX 1).toNat * (accFull.readX 2).toNat = 2 ^ 192 := by
  decide +kernel

/-- Both clauses at the boundary: the sum `2^192 - 1`, and `2^192` (V3.10). -/
theorem witness_MaccdAddsDoubledProductOrFaults :
    accLess2.acc.toNat + 2 * (accLess2.readX 1).toNat * (accLess2.readX 2).toNat = 2 ^ 192 - 1 ∧
      accLess1.halted = false ∧
      accLess1.acc.toNat + 2 * (accLess1.readX 1).toNat * (accLess1.readX 2).toNat = 2 ^ 192 := by decide +kernel

theorem witness_MaccdIsMaccTwice :
    accLess2.acc.toNat + 2 * (accLess2.readX 1).toNat * (accLess2.readX 2).toNat < 2 ^ 192 := by decide +kernel

/-- ACC2 at the largest value the statement takes, `2^64 - 5`, and one more. -/
theorem witness_AccumulateRaisesTopLimbByAtMostTwo :
    (accState (accOf (maxLimb - 4) maxLimb maxLimb)).acc.toNat / 2 ^ 128 + 4 < 2 ^ 64 ∧
      ¬ (accState (accOf (maxLimb - 3) 0 0)).acc.toNat / 2 ^ 128 + 4 < 2 ^ 64 := by decide +kernel

theorem witness_AccumulationAfterClearNeverOverflows :
    (∀ i ∈ [Instr.macc 0 0, .maccd 1 2, .accsh 3, .muls 0 1 2], i.wf = true ∧ IsUnfinished i = false) ∧
      [Instr.macc 0 0, .maccd 1 2, .accsh 3, .muls 0 1 2].countP IsAccumulate < 2 ^ 62 := by decide +kernel

/-- v1 and v2 given. -/
abbrev srcState (a b : Wide) : State := withV [(1, a), (2, b)] State.reset

/-- The largest valid layout P element, twice. -/
theorem witness_MulpWritesFullProduct :
    ∀ k, 12 ≤ k → k < 16 →
      lane ((srcState maxP maxP).readV 1) k = 0 ∧ lane ((srcState maxP maxP).readV 2) k = 0 := by
  intro k h1 h2
  interval_cases k <;> decide +kernel

/-- Layouts P and Z are the same lanes. -/
theorem witness_MulzWritesFullProduct :
    ∀ k, 12 ≤ k → k < 16 →
      lane ((srcState maxP maxP).readV 1) k = 0 ∧ lane ((srcState maxP maxP).readV 2) k = 0 :=
  witness_MulpWritesFullProduct

/-- The largest valid layout H element, twice. -/
theorem witness_MulhWritesFullProduct :
    ∀ v ∈ [(srcState maxH maxH).readV 1, (srcState maxH maxH).readV 2],
      (∀ k < 12, (lane v (2 * k)).toNat < 2 ^ 24 ∧ lane v (2 * k + 1) = 0) ∧
        ∀ k, 12 ≤ k → k < 16 → limb v k = 0 := by
  intro v hv
  have h : v = maxH := by
    simp only [List.mem_cons, List.not_mem_nil, or_false] at hv
    rcases hv with rfl | rfl <;> decide +kernel
  subst h
  refine ⟨by decide +kernel, fun k h1 h2 => ?_⟩
  interval_cases k <;> decide +kernel

/-- A register for every clause, at both ends of each range. -/
theorem witness_InvalidOperandsGiveUnspecifiedResult :
    lane ((srcState (dReg (List.replicate 12 0 ++ [1])) 0).readV 1) 12 ≠ 0 ∧
      lane ((srcState 0 (dReg (List.replicate 15 0 ++ [1]))).readV 2) 15 ≠ 0 ∧
      2 ^ 24 ≤ (lane ((srcState (hReg [0x1000000]) 0).readV 1) (2 * 0)).toNat ∧
      2 ^ 24 ≤ (lane ((srcState 0 (hReg (List.replicate 11 0 ++ [0x1000000]))).readV 2) (2 * 11)).toNat ∧
      lane ((srcState (dReg [1, 1]) 0).readV 1) (2 * 0 + 1) ≠ 0 ∧
      lane ((srcState (dReg (List.replicate 23 0 ++ [1])) 0).readV 1) (2 * 11 + 1) ≠ 0 ∧
      limb ((srcState (qReg (List.replicate 12 0 ++ [1])) 0).readV 1) 12 ≠ 0 ∧
      limb ((srcState (qReg (List.replicate 15 0 ++ [1])) 0).readV 1) 15 ≠ 0 ∧
      2 ^ 24 ≤ (lane ((srcState (qReg [0x1000000]) 0).readV 1) 0).toNat ∧
      2 ^ 24 ≤ (lane ((srcState (qReg [0, 0, 0, 0, 0, 0x100000000000000]) 0).readV 1) 11).toNat := by decide +kernel

theorem witness_UnfinishedCommandsFailLoudly : (srcState maxP maxP).halted = false := by decide +kernel

theorem witness_MulpEqualsRoundDatapath :
    validP ((srcState maxP maxP).readV 1) = true ∧ validP ((srcState maxP maxP).readV 2) = true := by decide +kernel

theorem witness_MulhEqualsRoundDatapath :
    validH ((srcState maxH maxH).readV 1) = true ∧ validH ((srcState maxH maxH).readV 2) = true := by decide +kernel

theorem witness_MulzEqualsRoundDatapath :
    validZ ((srcState maxP maxP).readV 1) = true ∧ validZ ((srcState maxP maxP).readV 2) = true := by decide +kernel

/-- The largest value that fits layout H (V7.11). -/
theorem witness_FromcanhKeepsFittingValue :
    ∀ m < 12, (lane ((srcState (qReg (List.replicate 6 0x00FFFFFF00FFFFFF)) 0).readV 1) m).toNat < 2 ^ 24 := by
  decide +kernel

theorem witness_ConversionsAsBits :
    ∀ m < 12, (lane ((srcState (qReg (List.replicate 6 0x00FFFFFF00FFFFFF)) 0).readV 1) m).toNat < 2 ^ 24 :=
  witness_FromcanhKeepsFittingValue

/-- A valid register of each layout, with lanes above the layout that are not zero for P and Z. -/
theorem witness_ToThenFromCanonicalIsIdentity :
    validP (dReg (List.replicate 12 9 ++ List.replicate 4 0 ++ List.replicate 16 7)) = true ∧
      validZ (dReg (List.replicate 12 9 ++ List.replicate 4 0 ++ List.replicate 16 7)) = true ∧
      validH maxH = true := by decide +kernel

/-- A value that fits layout H, with upper limbs that are not zero. -/
theorem witness_FromThenToCanonicalIsIdentity :
    fitsH (qReg (List.replicate 6 0x00FFFFFF00FFFFFF ++ List.replicate 10 9)) = true := by decide +kernel

/-- The operands of program P2 in v1 and v2. -/
abbrev p2State : State :=
  srcState (qReg [0x12345600ABCDEF, 0xFFFFFF00000001, 0x800000, 0x7FFFFF00FEDCBA, 0x100000002, 0xA5A5A5005A5A5A])
    (qReg [0xFFFFFF00FFFFFF, 3, 0xC0FFEE00BADF00, 0, 0x123456007890AB, 0xFFFFFF00FFFFFF])

/-- Both operands fit layout H. With `a, b, e, f = v1, v2, v3, v4` the first three clauses apply, also with `e = a` and
`f = b`; with `a = b = v1` they apply with `f = e = v3`, the first two with `e = b` too, and so do the last three. -/
theorem witness_VectorBackendsAgreeWithScalar :
    fitsH (p2State.readV 1) = true ∧ fitsH (p2State.readV 2) = true ∧
      (∃ m, exec (.muls 5 1 2) p2State = .next m) ∧ (∃ m, exec (.muls 5 1 1) p2State = .next m) ∧
      ((1 : VReg) = 2 ∨ ((3 : VReg) ≠ 2 ∧ (4 : VReg) ≠ 3)) ∧ ((1 : VReg) = 2 ∨ ((1 : VReg) ≠ 2 ∧ (2 : VReg) ≠ 1)) ∧
      ((3 : VReg) ≠ 1 ∧ ((1 : VReg) = 1 ∨ (3 : VReg) ≠ 3)) ∧ ((1 : VReg) = 1 ∨ ((1 : VReg) ≠ 1 ∧ (3 : VReg) ≠ 1)) :=
  ⟨by decide +kernel, by decide +kernel, ⟨_, rfl⟩, ⟨_, rfl⟩, by decide, by decide, by decide, by decide⟩

/-- The bounds of the datapath statements at their ends: the last flush step and the last slot, the last column. -/
theorem witness_DatapathBounds :
    (slotsInRound (rowP maxP maxP) 31).getD 16 0 < 2 ^ 39 ∧ (slotsInRound (rowH maxH maxH) 31).getD 16 0 < 2 ^ 53 ∧
      (slotsInRound (rowZ maxP maxP) 31).getD 16 0 < 2 ^ 69 ∧
      (combaColumns (combaColumn (qReg (List.replicate 6 maxLimb)) (qReg (List.replicate 6 maxLimb))) 11).1
        < 2 ^ 67 := by
  decide +kernel

end Sys2Proof.Tests
end

/-! PROOFS. The family of the state (10_state.md): what two runs of one command have in common, what a step keeps of the
fault record and of unwritten registers, the views of a V register and the results the spec leaves open. -/

/-! ### A command has one word (30_encoding.md R71, R73) -/
namespace Sys2Proof

/-- The word a command was decoded from is its encoding: mask and match fix every bit outside the fields (log 6). -/
theorem encode_of_decode {w : Cmd} {i : Instr} (h : decode w = .command i) : encode i = w := by
  obtain ⟨r, hr, hm, rfl, -⟩ := decode_inv h
  have hw := w.isLt
  simp only [opcodeTable, moveRows, carryRows, backendRows, conversionRows, laneRows, List.cons_append,
    List.nil_append, List.mem_cons, List.not_mem_nil, or_false] at hr
  rcases hr with rfl | rfl | rfl | rfl | rfl | rfl | rfl | rfl | rfl | rfl | rfl | rfl | rfl | rfl | rfl | rfl | rfl |
    rfl | rfl | rfl | rfl | rfl | rfl | rfl | rfl | rfl | rfl <;>
  refine packWord_of_toNat ?_ <;>
  simp only [mask_D1, mask_D2, mask_D3, mask_A2, mask_M5, mask_Z0, mask_limb, mask_lane2, mask_lane3,
    BitVec.toNat_ofNat, fieldRd, fieldRa, fieldRb, fieldRc, fieldRk, regField_val, fieldLimb_val, fieldImm_val]
    at hm ⊢ <;>
  omega

end Sys2Proof

/-! ### What a command leaves in STATUS and BADCMD -/
namespace Sys2Proof.Machine

open Sys2Proof.Safety

theorem halted_eq_false_iff (s : State) : s.halted = false ↔ s.cause = 0 := by
  simp [State.halted]

/-- A command that raises no fault wrote its write set and nothing else; one that raises one is an ill-formed MAC, an
unfinished command or an accumulate (R31, R236). -/
theorem CommandEffect.writes_or_raises {i : Instr} {s t : State} (h : CommandEffect i s t) :
    (OnlyWrites (writes i) s t ∧ ControlKept s t) ∨
      ∃ c, t = s.raise c (encode i) ∧ (i.wf = false ∨ IsUnfinished i = true ∨ IsAccumulate i = true) := by
  cases h with
  | writesX d w h => exact .inl (h ▸ ⟨(ran_writeX s d w).1, rfl, rfl⟩)
  | writesV d w h => exact .inl (h ▸ ⟨(ran_writeV s d w).1, rfl, rfl⟩)
  | writesAcc w h => exact .inl (h ▸ ⟨(ran_writeAcc s w).1, rfl, rfl⟩)
  | writesXX d k w z h => exact .inl (h ▸ ⟨(ran_writeX_writeX s d k w z).1, rfl, rfl⟩)
  | writesXAcc d w z h => exact .inl (h ▸ ⟨(ran_writeX_writeAcc s d w z).1, rfl, rfl⟩)
  | writesUnspecified d h => exact .inl (h ▸ ⟨(ranUnspecified_writeUnspecified s d).1, rfl, rfl⟩)
  | illegal h => exact .inr ⟨_, rfl, .inl h⟩
  | unfinished h => exact .inr ⟨_, rfl, .inr (.inl h)⟩
  | overflowsMacc a b h ho => exact .inr ⟨_, rfl, .inr (.inr (h ▸ rfl))⟩
  | overflowsMaccd a b h ho => exact .inr ⟨_, rfl, .inr (.inr (h ▸ rfl))⟩

/-! ### Two runs of one command -/

/-- One and the same update of `s` and of `t`, an update that command `i` can make. A fault leaves the registers of the
write set as they were, and these are then among those read. -/
inductive PairedEffect (i : Instr) (s t : State) : State → State → Prop
  | writesX (d : XReg) (w : Word) (h : writes i = [.x d]) : PairedEffect i s t (s.writeX d w) (t.writeX d w)
  | writesV (d : VReg) (w : Wide) (h : writes i = [.v d]) : PairedEffect i s t (s.writeV d w) (t.writeV d w)
  | writesAcc (w : Acc) (h : writes i = [.acc]) : PairedEffect i s t (s.writeAcc w) (t.writeAcc w)
  | writesXX (d k : XReg) (w z : Word) (h : writes i = [.x d, .x k]) :
      PairedEffect i s t ((s.writeX d w).writeX k z) ((t.writeX d w).writeX k z)
  | writesXAcc (d : XReg) (w : Word) (z : Acc) (h : writes i = [.x d, .acc]) :
      PairedEffect i s t ((s.writeX d w).writeAcc z) ((t.writeX d w).writeAcc z)
  | writesUnspecified (d : VReg) (h : writes i = [.v d]) :
      PairedEffect i s t (s.writeUnspecified d) (t.writeUnspecified d)
  | raises (c : Cause) (h : ∀ r ∈ writes i, r ∈ reads i) :
      PairedEffect i s t (s.raise c (encode i)) (t.raise c (encode i))

namespace PairedEffect

variable {i : Instr} {s t : State}

theorem of_writeV {d : VReg} {w z : Wide} (h : writes i = [.v d]) (hw : w = z) :
    PairedEffect i s t (s.writeV d w) (t.writeV d z) :=
  hw ▸ .writesV d w h

theorem of_writeIfValid {ok ok' : Bool} {d : VReg} {w z : Wide} (h : writes i = [.v d]) (hok : ok = ok')
    (hw : w = z) : PairedEffect i s t (s.writeIfValid ok d w) (t.writeIfValid ok' d z) := by
  subst hok hw
  cases ok with
  | true => exact .writesV d w h
  | false => exact .writesUnspecified d h

theorem of_accumulate {p q : Nat} (hw : writes i = [.acc]) (hr : .acc ∈ reads i) (hacc : s.acc = t.acc) (hp : p = q) :
    PairedEffect i s t (s.accumulate p (encode i)) (t.accumulate q (encode i)) := by
  subst hp
  simp only [State.accumulate, hacc]
  split
  · exact .writesAcc _ hw
  · exact .raises _ (by simpa [hw] using hr)

end PairedEffect

/-- A command makes one and the same update of two states that agree on its read set (R31). -/
theorem exec_paired (i : Instr) (s t : State) (hr : ∀ r ∈ reads i, s.contents r = t.contents r) :
    ∃ s' t', exec i s = .next s' ∧ exec i t = .next t' ∧ PairedEffect i s t s' t' := by
  have hx (a : XReg) (h : .x a ∈ reads i) : s.readX a = t.readX a := readX_eq_of_contents (hr _ h)
  have hv (a : VReg) (h : .v a ∈ reads i) : s.readV a = t.readV a := readV_eq_of_contents (hr _ h)
  have hacc (h : .acc ∈ reads i) : s.acc = t.acc := acc_eq_of_contents (hr _ h)
  cases i <;> simp only [reads] at hx hv hacc
  case getq d a imm => exact ⟨_, _, rfl, rfl, by rw [hv a (by simp)]; exact .writesX _ _ rfl⟩
  case mac d k a b c =>
    by_cases h : d = k
    · exact ⟨_, _, if_pos h, if_pos h, .raises _ (by simp [writes, reads, h])⟩
    · refine ⟨_, _, if_neg h, if_neg h, ?_⟩
      rw [hx a (by simp), hx b (by simp), hx c (by simp), hx k (by simp)]
      exact .writesXX _ _ _ _ rfl
  case accclr => exact ⟨_, _, rfl, rfl, .writesAcc _ rfl⟩
  case macc a b => exact ⟨_, _, rfl, rfl, .of_accumulate rfl (by simp [reads]) (hacc (by simp)) (by simp [hx])⟩
  case maccd a b => exact ⟨_, _, rfl, rfl, .of_accumulate rfl (by simp [reads]) (hacc (by simp)) (by simp [hx])⟩
  case accsh d => exact ⟨_, _, rfl, rfl, by rw [hacc (by simp)]; exact .writesXAcc _ _ _ rfl⟩
  case mulw d a b => exact ⟨_, _, rfl, rfl, .raises _ (by simp [writes])⟩
  case cvt29 d a => exact ⟨_, _, rfl, rfl, .raises _ (by simp [writes])⟩
  case cvt64 d a => exact ⟨_, _, rfl, rfl, .raises _ (by simp [writes])⟩
  case mulp d a b => exact ⟨_, _, rfl, rfl, .of_writeIfValid rfl (by simp [hv]) (by simp [hv])⟩
  case mulh d a b => exact ⟨_, _, rfl, rfl, .of_writeIfValid rfl (by simp [hv]) (by simp [hv])⟩
  case mulz d a b => exact ⟨_, _, rfl, rfl, .of_writeIfValid rfl (by simp [hv]) (by simp [hv])⟩
  case fromcanh d a => exact ⟨_, _, rfl, rfl, .of_writeIfValid rfl (by simp [hv]) (by simp [hv])⟩
  case vzero d => exact ⟨_, _, rfl, rfl, .writesV _ _ rfl⟩
  case setq d a imm => exact ⟨_, _, rfl, rfl, .of_writeV rfl (by simp [hx, hv])⟩
  case muls d a b => exact ⟨_, _, rfl, rfl, .of_writeV rfl (by simp [hv])⟩
  case sqrs d a => exact ⟨_, _, rfl, rfl, .of_writeV rfl (by simp [hv])⟩
  case tocanp d a => exact ⟨_, _, rfl, rfl, .of_writeV rfl (by simp [hv])⟩
  case fromcanp d a => exact ⟨_, _, rfl, rfl, .of_writeV rfl (by simp [hv])⟩
  case tocanh d a => exact ⟨_, _, rfl, rfl, .of_writeV rfl (by simp [hv])⟩
  case tocanz d a => exact ⟨_, _, rfl, rfl, .of_writeV rfl (by simp [hv])⟩
  case fromcanz d a => exact ⟨_, _, rfl, rfl, .of_writeV rfl (by simp [hv])⟩
  case tocanprod d a => exact ⟨_, _, rfl, rfl, .of_writeV rfl (by simp [hv])⟩
  case lmullo d a b imm => exact ⟨_, _, rfl, rfl, .of_writeV rfl (by simp [hv])⟩
  case lmulhi d a b imm => exact ⟨_, _, rfl, rfl, .of_writeV rfl (by simp [hv])⟩
  case lshr d a => exact ⟨_, _, rfl, rfl, .of_writeV rfl (by simp [hv])⟩
  case lins d a imm => exact ⟨_, _, rfl, rfl, .of_writeV rfl (by simp [hv])⟩

/-- The same update leaves the same in the write set of two states that agree on the read set and the draw counter. -/
theorem PairedEffect.contents_eq {i : Instr} {s t s' t' : State} (he : PairedEffect i s t s' t')
    (hr : ∀ r ∈ reads i, s.contents r = t.contents r) (hd : s.draws = t.draws) :
    ∀ r ∈ writes i, s'.contents r = t'.contents r := by
  intro r hm
  cases he with
  | writesX d w h =>
    have hm' : r = .x d := by simpa [h] using hm
    simp [hm']
  | writesV d w h =>
    have hm' : r = .v d := by simpa [h] using hm
    simp [hm']
  | writesAcc w h =>
    have hm' : r = .acc := by simpa [h] using hm
    simp [hm']
  | writesXX d k w z h =>
    have hm' : r = .x d ∨ r = .x k := by simpa [h] using hm
    rcases hm' with rfl | rfl <;> simp
  | writesXAcc d w z h =>
    have hm' : r = .x d ∨ r = .acc := by simpa [h] using hm
    rcases hm' with rfl | rfl <;> simp
  | writesUnspecified d h =>
    have hm' : r = .v d := by simpa [h] using hm
    simp [hm', hd]
  | raises c h => simpa using hr r (h r hm)

end Sys2Proof.Machine

namespace Sys2Proof.Safety

open Sys2Proof.Machine

/-! ### States that differ only in unwritten registers (R29) -/

namespace SameWritten

variable {s t s' t' : State}

theorem isWritten_eq (h : SameWritten s t) (r : RegName) : s.isWritten r = t.isWritten r := h.1 r

theorem pending_eq (h : SameWritten s t) : s.pending = t.pending := by
  obtain ⟨-, -, -, -, hp, -⟩ := h
  exact hp

theorem status_eq (h : SameWritten s t) : s.status = t.status := by
  obtain ⟨-, -, hstatus, -⟩ := h
  exact hstatus

theorem badcmd_eq (h : SameWritten s t) : s.badcmd = t.badcmd := by
  obtain ⟨-, -, -, hbad, -⟩ := h
  exact hbad

theorem contents_eq (h : SameWritten s t) {r : RegName} (hr : s.isWritten r = true) : s.contents r = t.contents r :=
  h.2.1 r hr

theorem halted_eq (h : SameWritten s t) : s.halted = t.halted := by
  simp [State.halted, State.cause, h.status_eq]

/-- Two runs that write the same registers, and the same into them, keep the states alike. -/
theorem of_ran {rs : List RegName} (h : SameWritten s t) (hs : Ran rs s s') (ht : Ran rs t t')
    (heq : ∀ r ∈ rs, s'.contents r = t'.contents r) : SameWritten s' t' := by
  obtain ⟨hw, hc, hstatus, hbad, hp, hrep, hd⟩ := h
  obtain ⟨⟨hsk, hsw⟩, ⟨hsstat, hsbad⟩, ⟨hspend, hsrep⟩, hsdraws⟩ := hs
  obtain ⟨⟨htk, htw⟩, ⟨htstat, htbad⟩, ⟨htpend, htrep⟩, htdraws⟩ := ht
  refine ⟨fun r => ?_, fun r hr => ?_, by rw [hsstat, htstat, hstatus], by rw [hsbad, htbad, hbad],
    by rw [hspend, htpend, hp], by rw [hsrep, htrep, hrep], by rw [hsdraws, htdraws, hd]⟩ <;> by_cases hm : r ∈ rs
  · rw [hsw r hm, htw r hm]
  · rw [(hsk r hm).2, (htk r hm).2, hw]
  · exact heq r hm
  · rw [(hsk r hm).1, (htk r hm).1]
    exact hc r ((hsk r hm).2 ▸ hr)

theorem writeX (h : SameWritten s t) (i : XReg) (w : Word) : SameWritten (s.writeX i w) (t.writeX i w) :=
  h.of_ran (ran_writeX s i w) (ran_writeX t i w) (by simp)

theorem writeV (h : SameWritten s t) (i : VReg) (w : Wide) : SameWritten (s.writeV i w) (t.writeV i w) :=
  h.of_ran (ran_writeV s i w) (ran_writeV t i w) (by simp)

theorem writeAcc (h : SameWritten s t) (w : Acc) : SameWritten (s.writeAcc w) (t.writeAcc w) :=
  h.of_ran (ran_writeAcc s w) (ran_writeAcc t w) (by simp)

/-- The draw counters are equal, so the free value drawn is the same (log 3). -/
theorem writeUnspecified (h : SameWritten s t) (i : VReg) :
    SameWritten (s.writeUnspecified i) (t.writeUnspecified i) := by
  have hv := h.writeV i (Config.unspecified s.draws)
  obtain ⟨-, -, hstatus, hbad, hp, hrep, hd⟩ := h
  obtain ⟨hw, hc, -⟩ := hv
  exact ⟨by simpa using hw, by simpa [hd] using hc, hstatus, hbad, hp, hrep, congrArg (· + 1) hd⟩

theorem raise (h : SameWritten s t) (c : Cause) (w : Cmd) : SameWritten (s.raise c w) (t.raise c w) := by
  obtain ⟨hw, hc, -, -, hhost⟩ := h
  exact ⟨by simpa using hw, by simpa using hc, rfl, rfl, hhost⟩

theorem reply (h : SameWritten s t) (a : HostReply) : SameWritten (s.reply a) (t.reply a) := by
  obtain ⟨hw, hc, hstatus, hbad, hp, hrep, hd⟩ := h
  exact ⟨by simpa using hw, by simpa using hc, hstatus, hbad, hp, congrArg (a :: ·) hrep, hd⟩

theorem taken (h : SameWritten s t) (rest : List HostTx) : SameWritten (s.taken rest) (t.taken rest) := by
  obtain ⟨hw, hc, hstatus, hbad, -, hrep, hd⟩ := h
  exact ⟨by simpa using hw, by simpa using hc, hstatus, hbad, rfl, hrep, hd⟩

theorem hostReset (h : SameWritten s t) : SameWritten s.hostReset t.hostReset := by
  obtain ⟨-, -, -, -, hhost⟩ := h
  exact ⟨by simp, by simp, rfl, rfl, hhost⟩

theorem unlessHalted (h : SameWritten s t) (h' : SameWritten s' t') :
    SameWritten (s.unlessHalted s') (t.unlessHalted t') := by
  rw [State.unlessHalted, State.unlessHalted, ← h.halted_eq]
  split
  · exact h
  · exact h'

/-- The same update keeps the states alike. -/
theorem paired (h : SameWritten s t) {i : Instr} (he : PairedEffect i s t s' t') : SameWritten s' t' := by
  cases he with
  | writesX d w _ => exact h.writeX d w
  | writesV d w _ => exact h.writeV d w
  | writesAcc w _ => exact h.writeAcc w
  | writesXX d k w z _ => exact (h.writeX d w).writeX k z
  | writesXAcc d w z _ => exact (h.writeX d w).writeAcc z
  | writesUnspecified d _ => exact h.writeUnspecified d
  | raises c _ => exact h.raise c _

/-- The next step reads the same registers. -/
theorem stepReads_eq (h : SameWritten s t) : stepReads s = stepReads t := by
  rw [stepReads, stepReads, h.pending_eq]
  cases t.pending with
  | nil => rfl
  | cons tx rest => cases tx <;> simp [txReads, h.halted_eq]

/-- A transaction that reads written registers only does the same in both. -/
theorem transact_agree (h : SameWritten s t) (tx : HostTx) (hr : ∀ r ∈ txReads s tx, s.isWritten r = true) :
    ∃ s' t', transact tx s = .next s' ∧ transact tx t = .next t' ∧ SameWritten s' t' := by
  have hc (r) (hm : r ∈ txReads s tx) : s.contents r = t.contents r := h.contents_eq (hr r hm)
  cases tx with
  | hreset => exact ⟨_, _, rfl, rfl, h.hostReset⟩
  | hcmd w =>
    simp only [txReads] at hc
    simp only [transact, hostCommand, ← h.halted_eq]
    cases hs : s.halted with
    | true => exact ⟨s, t, by simp, by simp, h⟩
    | false =>
      simp only [hs, Bool.false_eq_true, if_false] at hc ⊢
      cases hd : decode w with
      | command i =>
        simp only [hd] at hc
        obtain ⟨s', t', hs', ht', he⟩ := exec_paired i s t hc
        exact ⟨s', t', hs', ht', h.paired he⟩
      | illegal why => exact ⟨_, _, rfl, rfl, h.raise _ _⟩
  | hwrx i val => exact ⟨_, _, rfl, rfl, h.unlessHalted (h.writeX i val)⟩
  | hwrv i val => exact ⟨_, _, rfl, rfl, h.unlessHalted (h.writeV i val)⟩
  | hwracc val => exact ⟨_, _, rfl, rfl, h.unlessHalted (h.writeAcc val)⟩
  | hrdx i =>
    have hx : s.readX i = t.readX i := readX_eq_of_contents (hc _ (by simp [txReads]))
    exact ⟨_, _, rfl, rfl, hx ▸ h.reply _⟩
  | hrdv i =>
    have hv : s.readV i = t.readV i := readV_eq_of_contents (hc _ (by simp [txReads]))
    exact ⟨_, _, rfl, rfl, hv ▸ h.reply _⟩
  | hrdacc =>
    have ha : s.acc = t.acc := acc_eq_of_contents (hc _ (by simp [txReads]))
    exact ⟨_, _, rfl, rfl, ha ▸ h.reply _⟩
  | hrdstatus =>
    have hstatus : s.readStatus = t.readStatus := by rw [State.readStatus, State.cause, h.status_eq]; rfl
    exact ⟨_, _, rfl, rfl, hstatus ▸ h.reply _⟩
  | hrdbadcmd => exact ⟨_, _, rfl, rfl, h.badcmd_eq ▸ h.reply _⟩

end SameWritten

theorem txReads_taken (s : State) (rest : List HostTx) (tx : HostTx) : txReads (s.taken rest) tx = txReads s tx := rfl

/-- A step that reads written registers only does the same in both. -/
theorem SameWritten.step_agree {s t : State} (h : SameWritten s t) (hr : ∀ r ∈ stepReads s, s.isWritten r = true) :
    ∃ s' t', step s = .next s' ∧ step t = .next t' ∧ SameWritten s' t' := by
  have hp := h.pending_eq
  cases hs : s.pending with
  | nil => exact ⟨s, t, step_idle hs, step_idle (hp ▸ hs), h⟩
  | cons tx rest =>
    rw [step_eq_transact hs, step_eq_transact (hp ▸ hs)]
    refine (h.taken rest).transact_agree tx ?_
    simpa [stepReads, hs, txReads_taken] using hr

/-! ### The checked step (R29, U1) -/

theorem checkedStep_of_written {s : State} (h : ∀ r ∈ stepReads s, s.isWritten r = true) :
    checkedStep s = step s := by
  have hf : (stepReads s).find? (fun r => !s.isWritten r) = none := by simpa using h
  rw [checkedStep, hf]

theorem checkedStep_of_unwritten {s : State} (h : ∃ r ∈ stepReads s, s.isWritten r = false) :
    ∃ r ∈ stepReads s, s.isWritten r = false ∧ checkedStep s = .fault (.readUnwritten r) := by
  cases hf : (stepReads s).find? (fun r => !s.isWritten r) with
  | none =>
    obtain ⟨r, hr, hw⟩ := h
    simpa [hw] using List.find?_eq_none.mp hf r hr
  | some r =>
    refine ⟨r, List.mem_of_find?_eq_some hf, by simpa using List.find?_some hf, ?_⟩
    rw [checkedStep, hf]

/-- A checked step that goes on read written registers only. -/
theorem written_of_checkedStep {s s' : State} (h : checkedStep s = .next s') :
    ∀ r ∈ stepReads s, s.isWritten r = true := by
  by_contra hn
  push Not at hn
  obtain ⟨r, -, -, hf⟩ := checkedStep_of_unwritten (s := s) (by simpa using hn)
  rw [hf] at h
  cases h

/-! ### The fault record (R24, R25) -/

/-- A block that is not halted has an empty fault record. -/
theorem FaultRecorded.clear {s : State} (h : FaultRecorded s) (hs : s.halted = false) :
    s.status = 0 ∧ s.badcmd = 0 := by
  have hc : ∀ c : BitVec 32, s.status = c → c.extractLsb' 0 8 = 0 := by
    rintro c rfl
    exact (halted_eq_false_iff s).mp hs
  rcases h with h | ⟨h, -⟩ | ⟨h, -⟩ | ⟨h, -⟩
  · exact h
  all_goals exact absurd (hc _ h) (by decide)

/-- A decoded command keeps an empty fault record or records the fault with the word that explains it. -/
theorem FaultRecorded.of_command {s t : State} {w : Cmd} {i : Instr} (hclear : s.status = 0 ∧ s.badcmd = 0)
    (hd : decode w = .command i) (he : CommandEffect i s t) : FaultRecorded t := by
  have hw : decode (encode i) = .command i := by rw [encode_of_decode hd, hd]
  cases he with
  | illegal h =>
    obtain ⟨-, -, -, -, hwf⟩ := decode_inv hd
    rw [h] at hwf
    cases hwf
  | unfinished h =>
    refine .inr (.inr (.inl ⟨rfl, ?_⟩))
    rw [State.raise_badcmd, hw]
    cases i with
    | mulw d a b => exact .inl ⟨d, a, b, rfl⟩
    | cvt29 d a => exact .inr (.inl ⟨d, a, rfl⟩)
    | cvt64 d a => exact .inr (.inr ⟨d, a, rfl⟩)
    | _ => cases h
  | overflowsMacc a b h ho => exact .inr (.inr (.inr ⟨rfl, .inl ⟨a, b, h ▸ hw, ho⟩⟩))
  | overflowsMaccd a b h ho => exact .inr (.inr (.inr ⟨rfl, .inr ⟨a, b, h ▸ hw, ho⟩⟩))
  | _ => exact .inl hclear

/-- A transaction keeps the fault record explained. -/
theorem FaultRecorded.of_transaction {s u : State} {tx : HostTx} (h : FaultRecorded s) (he : TxEffect s tx u) :
    FaultRecorded u := by
  cases he with
  | reset => exact .inl ⟨rfl, rfl⟩
  | ignored _ _ _ => exact h
  | command w i u hs hd he => exact .of_command (h.clear hs) hd (exec_inv he)
  | illegal w why hs hd => exact .inr (.inl ⟨rfl, why, hd⟩)
  | writesX i val hs => exact .inl (h.clear hs)
  | writesV i val hs => exact .inl (h.clear hs)
  | writesAcc val hs => exact .inl (h.clear hs)
  | answers _ r _ => exact h

end Sys2Proof.Safety

/-! ### Layout views and validity (R22, R34 to R36) -/
namespace Sys2Proof.Machine

open Sys2Proof.Safety

theorem bits_readStatus (s : State) : bits s.readStatus 7 0 = s.cause.toNat ∧ bits s.readStatus 31 8 = 0 := by
  have h := s.cause.isLt
  simp only [bits, State.readStatus, BitVec.toNat_setWidth]
  omega

/-- Limb `k` is lane `2k+1` over lane `2k` (R22). -/
theorem limb_toNat_eq_lanes (v : Wide) (k : Nat) :
    (limb v k).toNat = (lane v (2 * k + 1)).toNat * 2 ^ 32 + (lane v (2 * k)).toNat := by
  rw [limb_toNat, lane_toNat, lane_toNat, show 32 * (2 * k) = 64 * k by omega,
    show 32 * (2 * k + 1) = 64 * k + 32 by omega, Nat.pow_add 2 (64 * k) 32, ← Nat.div_div_eq_div_mul]
  omega

theorem limb_eq_append_lanes (v : Wide) (k : Nat) : limb v k = lane v (2 * k + 1) ++ lane v (2 * k) := by
  apply BitVec.eq_of_toNat_eq
  rw [limb_toNat_eq_lanes, BitVec.toNat_append, Nat.shiftLeft_eq, ← Nat.mul_comm (2 ^ 32),
    Nat.two_pow_add_eq_or_of_lt (lane v (2 * k)).isLt]

theorem limb_toNat_eq_bits (v : Wide) (k : Nat) : (limb v k).toNat = bits v (64 * k + 63) (64 * k) := by
  rw [limb_toNat, bits, Nat.add_sub_cancel_left]

theorem lane_toNat_eq_bits (v : Wide) (k : Nat) : (lane v k).toNat = bits v (32 * k + 31) (32 * k) := by
  rw [lane_toNat, bits, Nat.add_sub_cancel_left]

theorem natq_eq_natd (v : Wide) (n : Nat) : natq v n = natd v (2 * n) := by
  rw [natq_eq_mod, natd_eq_mod, show 32 * (2 * n) = 64 * n by omega]

theorem validP_eq_false_iff (v : Wide) : validP v = false ↔ ∃ k, 12 ≤ k ∧ k < 16 ∧ lane v k ≠ 0 := by
  rw [Bool.eq_false_iff, ne_eq, validP_iff]
  push Not
  rfl

theorem validH_eq_false_of {v : Wide} (h : (∃ k < 12, 2 ^ 24 ≤ (lane v (2 * k)).toNat ∨ lane v (2 * k + 1) ≠ 0) ∨
    ∃ k, 12 ≤ k ∧ k < 16 ∧ limb v k ≠ 0) : validH v = false := by
  rw [Bool.eq_false_iff, ne_eq, validH_iff]
  rintro ⟨hslots, hpad⟩
  rcases h with ⟨k, hk, h | h⟩ | ⟨k, h1, h2, h⟩
  · exact absurd (hslots k hk).1 (Nat.not_lt.mpr h)
  · exact h (hslots k hk).2
  · exact h (hpad k h1 h2)

theorem fitsH_eq_false_of {v : Wide} {m : Nat} (hm : m < 12) (h : 2 ^ 24 ≤ (lane v m).toNat) : fitsH v = false := by
  rw [Bool.eq_false_iff, ne_eq, fitsH_iff]
  exact fun hf => absurd (hf m hm) (Nat.not_lt.mpr h)

/-- A write whose sources are not valid is an unspecified one (R38). -/
theorem ranUnspecified_writeIfValid (s : State) {ok : Bool} (h : ok = false) (d : VReg) (w : Wide) :
    RanUnspecified d s (s.writeIfValid ok d w) := by
  subst h
  exact ranUnspecified_writeUnspecified s d

end Sys2Proof.Machine

/-! ### The obligations -/
namespace Sys2Proof.Proofs

open Sys2Proof.Machine Sys2Proof.Safety

/-- Settles O17: the invariant through each effect of a transaction. -/
theorem stepKeepsFaultRecordExplained : Obligations.StepKeepsFaultRecordExplained := by
  intro s u h hs
  rcases step_inv hs with ⟨-, rfl⟩ | ⟨tx, rest, -, he⟩
  · exact h
  · exact FaultRecorded.of_transaction (s := s.taken rest) h he

/-- Settles O21: the reads of a checked step that goes on are written in both states, so both steps do the same. -/
theorem checkedStepsIgnoreUnwrittenContents : Obligations.CheckedStepsIgnoreUnwrittenContents := by
  intro s t s' h hs
  have hrs : ∀ r ∈ stepReads s, s.isWritten r = true := written_of_checkedStep hs
  have hrt : ∀ r ∈ stepReads t, t.isWritten r = true := by
    rw [← h.stepReads_eq]
    exact fun r hr => h.isWritten_eq r ▸ hrs r hr
  obtain ⟨u, t', hu, ht, h'⟩ := h.step_agree hrs
  rw [checkedStep_of_written hrs, hu] at hs
  cases hs
  exact ⟨t', (checkedStep_of_written hrt).trans ht, h'⟩

/-- Settles O15: of the effects of a transaction only HRESET and a fault touch STATUS and BADCMD. -/
theorem statusChangesOnlyByFaultOrReset : Obligations.StatusChangesOnlyByFaultOrReset := by
  intro s t h
  rcases step_inv h with ⟨-, rfl⟩ | ⟨tx, rest, hp, he⟩
  · exact .inl ⟨rfl, rfl⟩
  cases he with
  | reset => exact .inr (.inl ⟨rest, hp, rfl, rfl⟩)
  | command w i t hs hd he =>
    rcases (exec_inv he).writes_or_raises with ⟨-, hk⟩ | ⟨c, rfl, -⟩
    · exact .inl hk
    · rw [encode_of_decode hd]
      exact .inr (.inr ⟨(halted_eq_false_iff s).mp hs, w, rest, c, hp, faulted_raise _ c w⟩)
  | illegal w why hs hd =>
    exact .inr (.inr ⟨(halted_eq_false_iff s).mp hs, w, rest, _, hp, faulted_raise _ _ w⟩)
  | _ => exact .inl ⟨rfl, rfl⟩

/-- Settles O18, by the effects a command can have. -/
theorem commandWritesOnlyItsWriteSet : Obligations.CommandWritesOnlyItsWriteSet := by
  intro i s t h
  have he := exec_inv h
  rcases he.writes_or_raises with ⟨hw, hk⟩ | ⟨c, rfl, hwhy⟩
  · exact .inl ⟨hw, hk, he.hostKept⟩
  · exact .inr ⟨c, faulted_raise s c _, hwhy⟩

/-- Settles O19: two runs of one command that read the same make the same update. -/
theorem resultsDependOnlyOnReadSet : Obligations.ResultsDependOnlyOnReadSet := by
  intro i s t hr hd
  obtain ⟨s', t', hs, ht, he⟩ := exec_paired i s t hr
  refine ⟨s', t', hs, ht, he.contents_eq hr hd, ?_⟩
  cases he with
  | raises c h => exact .inr ⟨c, faulted_raise s c _, faulted_raise t c _⟩
  | _ => exact .inl ⟨⟨rfl, rfl⟩, rfl, rfl⟩

/-- Settles O22: both views are digits of one number. -/
theorem limbsAndLanesOverlay : Obligations.LimbsAndLanesOverlay := fun v =>
  ⟨fun k _ => limb_toNat_eq_bits v k, fun k _ => lane_toNat_eq_bits v k, fun k _ => limb_eq_append_lanes v k,
    fun k _ => limb_toNat_eq_lanes v k, fun n _ => natq_eq_natd v n⟩

/-- Settles O44: an operand that breaks its layout makes the validity check of the command fail. -/
theorem invalidOperandsGiveUnspecifiedResult : Obligations.InvalidOperandsGiveUnspecifiedResult := by
  intro d a b s
  refine ⟨fun ⟨k, h1, h2, h⟩ => ?_, fun ⟨v, hv, h⟩ => ?_, fun ⟨m, hm, h⟩ => ?_⟩
  · have hok : (validP (s.readV a) && validP (s.readV b)) = false := by
      rw [Bool.and_eq_false_iff, validP_eq_false_iff, validP_eq_false_iff]
      exact h.imp (⟨k, h1, h2, ·⟩) (⟨k, h1, h2, ·⟩)
    exact ⟨⟨_, rfl, ranUnspecified_writeIfValid s hok d _⟩, _, rfl, ranUnspecified_writeIfValid s hok d _⟩
  · have hok : (validH (s.readV a) && validH (s.readV b)) = false := by
      have hv' : v = s.readV a ∨ v = s.readV b := by simpa using hv
      rcases hv' with rfl | rfl <;> simp [validH_eq_false_of h]
    exact ⟨_, rfl, ranUnspecified_writeIfValid s hok d _⟩
  · exact ⟨_, rfl, ranUnspecified_writeIfValid s (fitsH_eq_false_of hm h) d _⟩

/-- Settles O10: a host read is one transaction, whose only effect is its answer. -/
theorem hostReadAnswersAndChangesNothing : Obligations.HostReadAnswersAndChangesNothing := fun s _ =>
  ⟨fun _ h => step_eq_transact h, fun _ h => step_eq_transact h, step_eq_transact, step_eq_transact,
    fun h => ⟨s.readStatus, (bits_readStatus s).1, (bits_readStatus s).2, step_eq_transact h⟩⟩

/-- Settles O16. -/
theorem faultRecordExplainedAtReset : Obligations.FaultRecordExplainedAtReset :=
  .inl ⟨State.reset_status, State.reset_badcmd⟩

/-- Settles O20, by whether the search for an unwritten read finds one. -/
theorem checkedStepStopsAtUnwrittenRead : Obligations.CheckedStepStopsAtUnwrittenRead := fun _ =>
  ⟨checkedStep_of_written, checkedStep_of_unwritten⟩

end Sys2Proof.Proofs

/-! ### Commands and host writes presented to a block that is not halted (R51, R80) -/
namespace Sys2Proof.Machine

/-- A transaction given and taken again leaves the state as it was. -/
theorem State.giveCommand_taken (s : State) (w : Cmd) : (s.giveCommand w).taken s.pending = s := rfl

/-- A whole command word is given as it is: all its 32 bits count (R70). -/
theorem State.withFetchWord_toNat (s : State) (w : Cmd) : s.withFetchWord 32 w.toNat = s.giveCommand w := by
  rw [State.withFetchWord, Nat.mod_eq_of_lt w.isLt, BitVec.ofNat_toNat, BitVec.setWidth_eq]

theorem State.unlessHalted_of_running {s : State} (h : s.halted = false) (t : State) : s.unlessHalted t = t := by
  simp [State.unlessHalted, h]

theorem hostCommand_of_decode {s : State} {w : Cmd} {i : Instr} (hs : s.halted = false) (hd : decode w = .command i) :
    hostCommand w s = exec i s := by
  simp [hostCommand, hs, hd]

/-- A step on a command word executes the command it decodes to. -/
theorem step_eq_exec {s : State} {w : Cmd} {rest : List HostTx} {i : Instr} (hp : s.pending = .hcmd w :: rest)
    (hs : s.halted = false) (hd : decode w = .command i) : step s = exec i (s.taken rest) :=
  (step_eq_transact hp).trans (hostCommand_of_decode (s := s.taken rest) hs hd)

/-- A step on a host write carries it out. -/
theorem step_eq_write {s u : State} {tx : HostTx} {rest : List HostTx} (hp : s.pending = tx :: rest)
    (hs : s.halted = false) (ht : transact tx (s.taken rest) = .next ((s.taken rest).unlessHalted u)) :
    step s = .next u := by
  rw [step_eq_transact hp, ht, State.unlessHalted_of_running (s := s.taken rest) hs]

end Sys2Proof.Machine

namespace Sys2Proof.Proofs

open Sys2Proof.Machine Sys2Proof.Safety

/-- Settles O7: `withFetchWord` puts the command word first on the host's list, so its clause is the first one there. -/
theorem stepExecutesDecodedCommand : Obligations.StepExecutesDecodedCommand := by
  refine ⟨fun s w rest i hp hs hd => step_eq_exec hp hs hd, fun s w i hs hd => ?_⟩
  rw [State.withFetchWord_toNat, step_eq_exec (State.giveCommand_pending s w) hs hd, State.giveCommand_taken]

/-- Settles O9: the step is the write of the register, whose effect and value the laws of the writes say. -/
theorem hostWriteStoresWholeRegister : Obligations.HostWriteStoresWholeRegister := by
  intro s rest hs
  refine ⟨fun i x hp => ?_, fun i x hp => ?_, fun x hp => ?_⟩
  · exact ⟨_, step_eq_write hp hs rfl, ran_writeX _ i x, by simp⟩
  · exact ⟨_, step_eq_write hp hs rfl, ran_writeV _ i x, by simp⟩
  · exact ⟨_, step_eq_write hp hs rfl, ran_writeAcc _ x, State.writeAcc_acc _ x⟩

end Sys2Proof.Proofs

/-! PROOFS. The family of the encoding (30_encoding.md): the word of a command and back, and which words the rules make
illegal. -/

/-! ### The word of a command (R71, R73) -/
namespace Sys2Proof

open Sys2Proof.Safety

/-- Every command's word matches a row of R73 whose fields give the command back. -/
theorem encode_matches_row (i : Instr) : Laws.EncodedRow.Statement i := by
  cases i with
  | vzero d => exact Laws.EncodedRow.vzero d
  | getq d a imm => exact Laws.EncodedRow.getq d a imm
  | setq d a imm => exact Laws.EncodedRow.setq d a imm
  | mac d k a b c => exact Laws.EncodedRow.mac d k a b c
  | accclr => exact Laws.EncodedRow.accclr
  | macc a b => exact Laws.EncodedRow.macc a b
  | maccd a b => exact Laws.EncodedRow.maccd a b
  | accsh d => exact Laws.EncodedRow.accsh d
  | muls d a b => exact Laws.EncodedRow.muls d a b
  | sqrs d a => exact Laws.EncodedRow.sqrs d a
  | mulp d a b => exact Laws.EncodedRow.mulp d a b
  | mulh d a b => exact Laws.EncodedRow.mulh d a b
  | mulz d a b => exact Laws.EncodedRow.mulz d a b
  | mulw d a b => exact Laws.EncodedRow.mulw d a b
  | cvt29 d a => exact Laws.EncodedRow.cvt29 d a
  | cvt64 d a => exact Laws.EncodedRow.cvt64 d a
  | tocanp d a => exact Laws.EncodedRow.tocanp d a
  | fromcanp d a => exact Laws.EncodedRow.fromcanp d a
  | tocanh d a => exact Laws.EncodedRow.tocanh d a
  | fromcanh d a => exact Laws.EncodedRow.fromcanh d a
  | tocanz d a => exact Laws.EncodedRow.tocanz d a
  | fromcanz d a => exact Laws.EncodedRow.fromcanz d a
  | tocanprod d a => exact Laws.EncodedRow.tocanprod d a
  | lmullo d a b imm => exact Laws.EncodedRow.lmullo d a b imm
  | lmulhi d a b imm => exact Laws.EncodedRow.lmulhi d a b imm
  | lshr d a => exact Laws.EncodedRow.lshr d a
  | lins d a imm => exact Laws.EncodedRow.lins d a imm

theorem decode_encode {i : Instr} (h : i.wf = true) : decode (encode i) = .command i := by
  obtain ⟨r, hr, hm, hb⟩ := encode_matches_row i
  rw [decode_of_match hr hm, hb, if_pos h]

/-! ### The rules that make a word illegal (R74, R75, R100) -/

theorem regField_val_eq_bits (w : Cmd) (lo : Nat) : (regField w lo).val = bits w (lo + 3) lo := by
  simp [regField_val, bits]

/-- R75's ranges and the opcodes of R73 share out the 256 opcodes. -/
theorem opcodeUnassigned_iff (w : Cmd) : OpcodeUnassigned w ↔ opcodeAssigned w = false := by
  have hlt : bits w 31 24 < 256 := Nat.mod_lt _ (by decide)
  unfold OpcodeUnassigned opcodeAssigned
  generalize bits w 31 24 = op at hlt
  revert op
  decide +kernel

theorem not_opcodeUnassigned_iff (w : Cmd) :
    ¬ OpcodeUnassigned w ↔ ∃ r ∈ opcodeTable, bits w 31 24 = bits r.pattern 31 24 := by
  rw [opcodeUnassigned_iff, Bool.not_eq_false, opcodeAssigned, List.any_eq_true]
  simp only [beq_iff_eq, eq_comm (a := bits w 31 24)]

/-- Under a row's opcode, the mask and the must-be-zero bits of the row's format say the same: the opcode leaves one
format's clause, and the mask's lemma reads the same bits. -/
theorem match_iff_of_opcode {r : OpRow} (hr : r ∈ opcodeTable) {w : Cmd} (ho : bits w 31 24 = bits r.pattern 31 24) :
    w &&& r.mask = r.pattern ↔ ¬ MustBeZeroBroken w := by
  have hw := w.isLt
  have hdiv := opcode_eq_div w
  rw [opcode_eq_div r.pattern] at ho
  simp only [opcodeTable, moveRows, carryRows, backendRows, conversionRows, laneRows, List.cons_append,
    List.nil_append, List.mem_cons, List.not_mem_nil, or_false] at hr
  rcases hr with rfl | rfl | rfl | rfl | rfl | rfl | rfl | rfl | rfl | rfl | rfl | rfl | rfl | rfl | rfl | rfl | rfl |
    rfl | rfl | rfl | rfl | rfl | rfl | rfl | rfl | rfl | rfl
  all_goals
    simp only [BitVec.toNat_ofNat, Nat.reducePow, Nat.reduceMod, Nat.reduceDiv] at ho
    simp only [MustBeZeroBroken, ho, List.mem_cons, List.not_mem_nil, Nat.reduceEqDiff, true_and, false_and,
      or_true, or_false, false_or, mask_D1, mask_D2, mask_D3, mask_A2, mask_M5, mask_Z0, mask_limb, mask_lane2,
      mask_lane3, BitVec.toNat_ofNat]
    simp only [bits]
    omega

/-- Only the MAC row can build an ill-formed command: one with `rd = rk`. -/
theorem wf_build_of_mem {r : OpRow} (hr : r ∈ opcodeTable) :
    (bits r.pattern 31 24 ≠ 0x10 ∧ ∀ w, (r.build w).wf = true) ∨
      (bits r.pattern 31 24 = 0x10 ∧ ∀ w, (r.build w).wf = (fieldRd w != fieldRk w)) := by
  simp only [opcodeTable, moveRows, carryRows, backendRows, conversionRows, laneRows, List.cons_append,
    List.nil_append, List.mem_cons, List.not_mem_nil, or_false] at hr
  rcases hr with rfl | rfl | rfl | rfl | rfl | rfl | rfl | rfl | rfl | rfl | rfl | rfl | rfl | rfl | rfl | rfl | rfl |
    rfl | rfl | rfl | rfl | rfl | rfl | rfl | rfl | rfl | rfl
  on_goal 4 => exact .inr ⟨by decide, fun _ => rfl⟩
  all_goals exact .inl ⟨by decide, fun _ => rfl⟩

theorem wf_build_iff_of_opcode {r : OpRow} (hr : r ∈ opcodeTable) {w : Cmd}
    (ho : bits w 31 24 = bits r.pattern 31 24) : (r.build w).wf = true ↔ ¬ MacSameRegister w := by
  rw [MacSameRegister, ho]
  rcases wf_build_of_mem hr with ⟨hop, hwf⟩ | ⟨hop, hwf⟩
  · simp [hwf, hop]
  · simp [hwf, hop, fieldRd, fieldRk, Fin.ext_iff, regField_val_eq_bits]

theorem decode_command_iff (w : Cmd) :
    (∃ i, decode w = .command i) ↔ ¬ OpcodeUnassigned w ∧ ¬ MustBeZeroBroken w ∧ ¬ MacSameRegister w := by
  rw [not_opcodeUnassigned_iff]
  constructor
  · rintro ⟨i, h⟩
    obtain ⟨r, hr, hm, rfl, hwf⟩ := decode_inv h
    have ho := opcode_of_match hr hm
    exact ⟨⟨r, hr, ho⟩, (match_iff_of_opcode hr ho).mp hm, (wf_build_iff_of_opcode hr ho).mp hwf⟩
  · rintro ⟨⟨r, hr, ho⟩, hmbz, hmac⟩
    refine ⟨r.build w, ?_⟩
    rw [decode_of_match hr ((match_iff_of_opcode hr ho).mpr hmbz), if_pos ((wf_build_iff_of_opcode hr ho).mpr hmac)]

/-- A must-be-zero bit that is 1 keeps the word from every row: from the row of its opcode by the mask, from the others
by the opcode. -/
theorem matchRow_of_mustBeZeroBroken {w : Cmd} (h : MustBeZeroBroken w) : matchRow w = none := by
  rw [matchRow, List.find?_eq_none]
  intro r hr hm
  have hm : w &&& r.mask = r.pattern := by simpa using hm
  exact (match_iff_of_opcode hr (opcode_of_match hr hm)).mp hm h

end Sys2Proof

/-! ### A word that is no command, presented (R232, R236) -/
namespace Sys2Proof.Machine

open Sys2Proof.Safety

theorem hostCommand_of_illegal {s : State} {w : Cmd} {why : IllegalReason} (hs : s.halted = false)
    (hd : decode w = .illegal why) : hostCommand w s = .next (s.raise .illegalCommand w) := by
  simp [hostCommand, hs, hd]

theorem step_faults_of_no_command {s : State} {w : Cmd} {rest : List HostTx} (hp : s.pending = .hcmd w :: rest)
    (hs : s.halted = false) (hd : ¬ ∃ i, decode w = .command i) :
    ∃ t, step s = .next t ∧ Faulted .illegalCommand w (s.taken rest) t := by
  cases hw : decode w with
  | command i => exact absurd ⟨i, hw⟩ hd
  | illegal why =>
    exact ⟨_, (step_eq_transact hp).trans (hostCommand_of_illegal (s := s.taken rest) hs hw), faulted_raise _ _ w⟩

end Sys2Proof.Machine

namespace Sys2Proof.Proofs

open Sys2Proof.Machine Sys2Proof.Safety

/-- Settles O1: every command's word matches its row, whose fields give the command back. -/
theorem decodeOfEncodeGivesCommand : Obligations.DecodeOfEncodeGivesCommand := fun _ => decode_encode

/-- Settles O2: mask and match fix every bit outside the fields. -/
theorem commandHasOneWord : Obligations.CommandHasOneWord := by
  intro w i h
  obtain ⟨-, -, -, -, hwf⟩ := decode_inv h
  exact ⟨hwf, encode_of_decode h⟩

/-- Settles O3: the opcode picks the row, and under it mask and well-formedness are the format's rules. -/
theorem wordIsCommandUnlessARuleForbidsIt : Obligations.WordIsCommandUnlessARuleForbidsIt := decode_command_iff

/-- Settles O5: no row matches the word, so it is no command. -/
theorem mustBeZeroBitRaisesIllegalCommand : Obligations.MustBeZeroBitRaisesIllegalCommand := by
  refine ⟨fun w => matchRow_of_mustBeZeroBroken, fun s w rest hp hs hmbz => step_faults_of_no_command hp hs ?_⟩
  rw [decode_command_iff]
  exact fun ⟨_, h, _⟩ => h hmbz

/-- Settles O6: R75's ranges are the complement of the table's opcodes, and such words are no commands. -/
theorem unassignedOpcodeRaisesIllegalCommand : Obligations.UnassignedOpcodeRaisesIllegalCommand := by
  refine ⟨opcodeUnassigned_iff, fun s w rest hp hs h => step_faults_of_no_command hp hs ?_, ?_, ?_⟩
  · rw [decode_command_iff]
    rintro ⟨hop, -, hmac⟩
    exact h.elim hop hmac
  · exact .inl (by decide)
  · rw [opcodeUnassigned_iff]
    decide

/-- Settles O4: twelve closed words, decoded. -/
theorem sampleWordsDecode : Obligations.SampleWordsDecode := by
  unfold Obligations.SampleWordsDecode
  decide

end Sys2Proof.Proofs

/-! PROOFS. The family of the carry chain (40_carry_chain.md): what a MAC delivers, what an accumulate adds into ACC, and
the room that is left in ACC over a sequence of commands. -/

/-! ### Adding into ACC and shifting it down (R103 to R105, R107) -/
namespace Sys2Proof.Machine

open Sys2Proof.Safety

theorem limb_product_lt (x y : Word) : x.toNat * y.toNat < 2 ^ 128 :=
  (Nat.mul_lt_mul'' x.isLt y.isLt).trans_eq (by norm_num)

theorem doubled_limb_product_lt (x y : Word) : 2 * x.toNat * y.toNat < 2 ^ 129 := by
  have h := limb_product_lt x y
  rw [Nat.mul_assoc]
  omega

@[simp] theorem readX_accumulate (s : State) (p : Nat) (w : Cmd) (j : XReg) :
    (s.accumulate p w).readX j = s.readX j := by
  rcases accumulate_cases s p w with ⟨-, he⟩ | ⟨-, he⟩ <;> rw [he] <;> rfl

/-- A sum below `2^192` is added exactly, and only ACC changes. -/
theorem accumulate_adds {s : State} {p : Nat} (w : Cmd) (h : s.acc.toNat + p < 2 ^ 192) :
    Ran [.acc] s (s.accumulate p w) ∧ (s.accumulate p w).acc.toNat = s.acc.toNat + p := by
  rcases accumulate_cases s p w with ⟨-, he⟩ | ⟨ho, -⟩
  · rw [he]
    exact ⟨ran_writeAcc s _, Nat.mod_eq_of_lt h⟩
  · exact absurd h (Nat.not_lt.mpr ho)

/-- A sum of `2^192` or more is a fault. -/
theorem accumulate_overflows {s : State} {p : Nat} (w : Cmd) (h : 2 ^ 192 ≤ s.acc.toNat + p) :
    Faulted .accOverflow w s (s.accumulate p w) := by
  rcases accumulate_cases s p w with ⟨hlt, -⟩ | ⟨-, he⟩
  · exact absurd hlt (Nat.not_lt.mpr h)
  · rw [he]
    exact faulted_raise s _ w

/-- With ACC2 more than 4 below `2^64`, adding less than `n * 2^128` carries at most `n` into the top limb. -/
theorem accumulate_top_limb_le {s : State} {p n : Nat} (w : Cmd) (htop : s.acc.toNat / 2 ^ 128 + 4 < 2 ^ 64)
    (hp : p < n * 2 ^ 128) (hn : n ≤ 4) :
    ControlKept s (s.accumulate p w) ∧ (s.accumulate p w).acc.toNat / 2 ^ 128 ≤ s.acc.toNat / 2 ^ 128 + n := by
  obtain ⟨⟨-, hk, -, -⟩, hacc⟩ := accumulate_adds (s := s) (p := p) w (by omega)
  exact ⟨hk, by omega⟩

/-- Two additions that fit add up to one. -/
theorem accumulate_accumulate {s : State} {p q : Nat} (w z : Cmd) (h : s.acc.toNat + (p + q) < 2 ^ 192) :
    (s.accumulate p w).accumulate q w = s.accumulate (p + q) z := by
  have hp : s.acc.toNat + p < 2 ^ 192 := by omega
  rw [← Nat.add_assoc] at h
  simp only [State.accumulate, if_pos hp, State.writeAcc_acc, BitVec.toNat_ofNat, Nat.mod_eq_of_lt hp, ← Nat.add_assoc,
    if_pos h]
  rfl

/-- What ACCSH leaves in ACC is the old ACC without its low limb (R105). -/
theorem shifted_acc_toNat (v : Acc) : (BitVec.ofNat 192 (v.toNat / 2 ^ 64)).toNat = v.toNat / 2 ^ 64 :=
  Nat.mod_eq_of_lt ((Nat.div_le_self _ _).trans_lt v.isLt)

/-- What ACCSH leaves in ACC has the old limbs one position down (R105). -/
theorem extractLsb'_shifted_acc (v : Acc) (k : Nat) :
    (BitVec.ofNat 192 (v.toNat / 2 ^ 64)).extractLsb' k 64 = v.extractLsb' (64 + k) 64 := by
  apply BitVec.eq_of_toNat_eq
  rw [BitVec.extractLsb'_toNat, BitVec.extractLsb'_toNat, shifted_acc_toNat, Nat.shiftRight_eq_div_pow,
    Nat.shiftRight_eq_div_pow, Nat.div_div_eq_div_mul, Nat.pow_add]

end Sys2Proof.Machine

/-! ### Room in ACC over a sequence of commands (R107) -/
namespace Sys2Proof.Safety

open Sys2Proof.Machine

theorem ControlKept.trans {s t u : State} (h : ControlKept s t) (h' : ControlKept t u) : ControlKept s u := by
  obtain ⟨hst, hbad⟩ := h
  obtain ⟨hst', hbad'⟩ := h'
  exact ⟨hst'.trans hst, hbad'.trans hbad⟩

theorem Ran.controlKept {rs : List RegName} {s t : State} (h : Ran rs s t) : ControlKept s t := h.2.1

theorem execAll_cons_of_next {i : Instr} {s t : State} (l : List Instr) (h : exec i s = .next t) :
    execAll (i :: l) s = execAll l t := by
  rw [execAll, h]

/-- MACC adds the product, MACCD its double. -/
theorem exec_accumulate {i : Instr} (hi : IsAccumulate i = true) (s : State) :
    ∃ p < 2 ^ 129, exec i s = .next (s.accumulate p (encode i)) := by
  cases i with
  | macc a b => exact ⟨_, (limb_product_lt (s.readX a) (s.readX b)).trans (by norm_num), rfl⟩
  | maccd a b => exact ⟨_, doubled_limb_product_lt (s.readX a) (s.readX b), rfl⟩
  | _ => cases hi

/-- With room for `2^129` in ACC an accumulate does not fault. -/
theorem exec_accumulate_of_room {i : Instr} {s : State} (hi : IsAccumulate i = true)
    (hroom : s.acc.toNat + 2 ^ 129 ≤ 2 ^ 192) :
    ∃ t, exec i s = .next t ∧ ControlKept s t ∧ t.acc.toNat ≤ s.acc.toNat + 2 ^ 129 := by
  obtain ⟨p, hp, he⟩ := exec_accumulate hi s
  obtain ⟨hran, hacc⟩ := accumulate_adds (s := s) (p := p) (encode i) (by omega)
  exact ⟨_, he, hran.controlKept, by omega⟩

/-- Beside the accumulates only ACCCLR and ACCSH write ACC (R31). -/
theorem eq_accclr_or_accsh {i : Instr} (hacc : .acc ∈ writes i) (hi : IsAccumulate i = false) :
    i = .accclr ∨ ∃ d, i = .accsh d := by
  cases i <;> simp_all [writes, IsAccumulate]

/-- A legal, finished command that is no accumulate does not fault and does not raise ACC. -/
theorem exec_acc_le_of_not_accumulate {i : Instr} (s : State) (hwf : i.wf = true) (hfin : IsUnfinished i = false)
    (hi : IsAccumulate i = false) :
    ∃ t, exec i s = .next t ∧ ControlKept s t ∧ t.acc.toNat ≤ s.acc.toNat := by
  obtain ⟨t, ht, he⟩ := exec_effect i s
  rcases he.writes_or_raises with ⟨⟨hkeep, -⟩, hk⟩ | ⟨c, -, hwhy⟩
  · refine ⟨t, ht, hk, ?_⟩
    by_cases hacc : .acc ∈ writes i
    · rcases eq_accclr_or_accsh hacc hi with rfl | ⟨d, rfl⟩
      · cases ht
        exact Nat.zero_le _
      · cases ht
        exact (shifted_acc_toNat s.acc).trans_le (Nat.div_le_self _ _)
    · exact (hkeep .acc hacc).1.le
  · simp [hwf, hfin, hi] at hwhy

/-- A list of legal, finished commands goes through when ACC has room for each of its accumulates. -/
theorem execAll_of_room {l : List Instr} {s : State} (hl : ∀ i ∈ l, i.wf = true ∧ IsUnfinished i = false)
    (hroom : s.acc.toNat + 2 ^ 129 * l.countP IsAccumulate ≤ 2 ^ 192) :
    ∃ t, execAll l s = .next t ∧ ControlKept s t := by
  induction l generalizing s with
  | nil => exact ⟨s, rfl, rfl, rfl⟩
  | cons i l ih =>
    obtain ⟨⟨hwf, hfin⟩, hl⟩ := List.forall_mem_cons.mp hl
    rw [List.countP_cons] at hroom
    obtain ⟨u, hu, hku, hroom⟩ : ∃ u, exec i s = .next u ∧ ControlKept s u ∧
        u.acc.toNat + 2 ^ 129 * l.countP IsAccumulate ≤ 2 ^ 192 := by
      cases hi : IsAccumulate i with
      | true =>
        rw [if_pos hi] at hroom
        have hone : s.acc.toNat + 2 ^ 129 ≤ 2 ^ 192 :=
          (Nat.add_le_add_left (Nat.le_mul_of_pos_right _ (Nat.succ_pos _)) _).trans hroom
        obtain ⟨u, hu, hku, hle⟩ := exec_accumulate_of_room hi hone
        exact ⟨u, hu, hku, by omega⟩
      | false =>
        obtain ⟨u, hu, hku, hle⟩ := exec_acc_le_of_not_accumulate s hwf hfin hi
        exact ⟨u, hu, hku, by omega⟩
    obtain ⟨t, ht, hkt⟩ := ih hl hroom
    exact ⟨t, (execAll_cons_of_next l hu).trans ht, hku.trans hkt⟩

end Sys2Proof.Safety

namespace Sys2Proof.Proofs

open Sys2Proof.Machine Sys2Proof.Safety

/-- Settles O26: the two halves of the sum are written, the high one last and into another register. -/
theorem macLosesNoCarry : Obligations.MacLosesNoCarry := by
  intro d k a b c s hdk
  refine ⟨_, if_neg hdk, ran_writeX_writeX s d k _ _, ?_⟩
  have hsum := macLow_add_macHigh (s.readX a) (s.readX b) (s.readX c) (s.readX k)
  rw [macSum] at hsum
  simp only [readX_writeX, if_neg (Ne.symm hdk), if_true]
  omega

/-- Settles O29: the sum fits or it does not. -/
theorem maccAddsProductOrFaults : Obligations.MaccAddsProductOrFaults := fun _ _ _ =>
  ⟨fun h => ⟨_, rfl, accumulate_adds _ h⟩, fun _ h => ⟨_, rfl, accumulate_overflows _ h⟩⟩

/-- Settles O30: the sum fits or it does not. -/
theorem maccdAddsDoubledProductOrFaults : Obligations.MaccdAddsDoubledProductOrFaults := fun _ _ _ =>
  ⟨fun h => ⟨_, rfl, accumulate_adds _ h⟩, fun _ h => ⟨_, rfl, accumulate_overflows _ h⟩⟩

/-- Settles O31: the first MACC leaves the sources as they were, so the second adds the same product. -/
theorem maccdIsMaccTwice : Obligations.MaccdIsMaccTwice := by
  intro a b s h
  have hdouble : 2 * (s.readX a).toNat * (s.readX b).toNat =
      (s.readX a).toNat * (s.readX b).toNat + (s.readX a).toNat * (s.readX b).toNat := by ring
  rw [hdouble] at h
  refine ⟨_, _, rfl, rfl, ?_⟩
  rw [exec, execMaccd, hdouble, readX_accumulate, readX_accumulate, accumulate_accumulate _ _ h]

/-- Settles O32: ACC is its quotient and remainder by `2^64`, and the quotient has the limbs one position down. -/
theorem accshDeliversLowLimb : Obligations.AccshDeliversLowLimb := by
  intro d s
  refine ⟨_, rfl, ran_writeX_writeAcc s d _ _, ?_, extractLsb'_shifted_acc s.acc 0, extractLsb'_shifted_acc s.acc 64,
    (extractLsb'_shifted_acc s.acc 128).trans ?_⟩
  · simp only [State.writeAcc_acc, readX_writeAcc, readX_writeX, if_true, BitVec.extractLsb'_toNat, Nat.shiftRight_zero,
      shifted_acc_toNat]
    exact (Nat.div_add_mod' _ _).symm
  · apply BitVec.eq_of_toNat_eq
    rw [BitVec.extractLsb'_toNat, Nat.shiftRight_eq_div_pow, Nat.div_eq_of_lt s.acc.isLt]
    rfl

/-- Settles O33: a product is below `2^128` and its double below `2^129`. -/
theorem accumulateRaisesTopLimbByAtMostTwo : Obligations.AccumulateRaisesTopLimbByAtMostTwo := by
  intro a b s h
  refine ⟨⟨_, rfl, accumulate_top_limb_le (n := 1) _ h ?_ (by decide)⟩,
    ⟨_, rfl, accumulate_top_limb_le (n := 2) _ h ?_ (by decide)⟩⟩
  · exact (limb_product_lt _ _).trans_eq (by norm_num)
  · exact (doubled_limb_product_lt _ _).trans_eq (by norm_num)

/-- Settles O34: ACCCLR leaves room for `2^63` accumulates. -/
theorem accumulationAfterClearNeverOverflows : Obligations.AccumulationAfterClearNeverOverflows := by
  intro l s hl hcount
  have hroom : (s.writeAcc 0).acc.toNat + 2 ^ 129 * l.countP IsAccumulate ≤ 2 ^ 192 := by
    have hzero : (s.writeAcc 0).acc.toNat = 0 := rfl
    omega
  obtain ⟨t, ht, hk⟩ := execAll_of_room hl hroom
  exact ⟨t, (execAll_cons_of_next l rfl).trans ht, (ran_writeAcc s 0).controlKept.trans hk⟩

/-- Settles O27: the term is refused before its sum is formed. -/
theorem macWithSameResultAndCarryFaults : Obligations.MacWithSameResultAndCarryFaults := fun _ _ _ _ s _ =>
  ⟨_, if_pos rfl, faulted_raise s _ _⟩

/-- Settles O28. -/
theorem accclrClearsAccumulator : Obligations.AccclrClearsAccumulator := fun s =>
  ⟨_, rfl, ran_writeAcc s 0, rfl⟩

end Sys2Proof.Proofs

/-! PROOFS. The family of the scalar backend (41_scalar_mul.md): what MULS and SQRS write, and that the reference
algorithms (R122, R126) denote the same product. -/

/-! ### The product as the reference algorithms form it (R122, R126) -/
namespace Sys2Proof.Machine

/-- A register that denotes the product of two S6 values is its S12 form: the product fits twelve limbs. -/
theorem eq_productS12_of_toNat {a b v : Wide} (h : v.toNat = valueS6 a * valueS6 b) :
    v = productS12 (valueS6 a * valueS6 b) := by
  apply BitVec.eq_of_toNat_eq
  rw [h, productS12_toNat, Nat.mod_eq_of_lt (product_lt (valueS6_lt a) (valueS6_lt b))]

/-- MULS writes the register that denotes the product, however it is formed. -/
theorem exec_muls_of_toNat {d a b : VReg} {s : State} {v : Wide}
    (h : v.toNat = valueS6 (s.readV a) * valueS6 (s.readV b)) : exec (.muls d a b) s = .next (s.writeV d v) := by
  rw [eq_productS12_of_toNat h]
  rfl

theorem operandScan_toNat (a b : Wide) : (operandScan a b).toNat = valueS6 a * valueS6 b := by
  obtain ⟨hlen, hval, -⟩ := scanRows_spec a b 6 le_rfl
  rw [operandScan, ofLimbs_toNat,
    natOf_eq_of_zero (m := 12) (by decide) fun k hk _ => List.getD_eq_default _ _ (hlen.trans_le hk)]
  exact hval

theorem sum_combaColumn (a b : Wide) :
    ∑ k ∈ Finset.range 11, combaColumn a b k * 2 ^ (64 * k) = valueS6 a * valueS6 b := by
  simp only [valueS6, natq, natOf_eq_sum, Nat.pow_mul]
  exact columns_eq_product (fun i => (limb a i).toNat) (fun j => (limb b j).toNat) (2 ^ 64)

/-- The Comba form delivers the product from any columns that are the product's own. -/
theorem comba_toNat_of_columns {a b : Wide} {col : Nat → Nat} (h : ∀ k < 11, col k = combaColumn a b k) :
    (comba col).toNat = valueS6 a * valueS6 b := by
  have hsum : ∑ k ∈ Finset.range 11, col k * 2 ^ (64 * k) = valueS6 a * valueS6 b :=
    (Finset.sum_congr rfl fun k hk => by rw [h k (Finset.mem_range.mp hk)]).trans (sum_combaColumn a b)
  rw [comba_toNat col (hsum.trans_lt (product_lt (valueS6_lt a) (valueS6_lt b))), hsum]

/-- A column has at most six products, so what is carried on stays near `6 * 2^64`. -/
theorem combaColumns_acc_lt (a b : Wide) (n : Nat) : (combaColumns (combaColumn a b) n).1 < 2 ^ 67 := by
  induction n with
  | zero => exact Nat.two_pow_pos 67
  | succ n ih =>
    have hcol := combaColumn_le a b n
    have hacc : (combaColumns (combaColumn a b) (n + 1)).1 =
        ((combaColumns (combaColumn a b) n).1 + combaColumn a b n) / 2 ^ 64 := rfl
    omega

end Sys2Proof.Machine

namespace Sys2Proof.Proofs

open Sys2Proof.Machine Sys2Proof.Safety

/-- Settles O37: both commands are the write of one and the same product. -/
theorem sqrsEqualsMulsOfItself : Obligations.SqrsEqualsMulsOfItself := fun _ _ _ => rfl

/-- Settles O35: the product of two S6 values fits the twelve limbs it is written to. -/
theorem mulsWritesFullProduct : Obligations.MulsWritesFullProduct := by
  intro d a b s
  refine ⟨_, rfl, ran_writeV s d _, ?_⟩
  rw [readV_writeV, if_pos rfl]
  exact ⟨natq_productS12 (product_lt (valueS6_lt _) (valueS6_lt _)), fun k => limb_productS12_high _⟩

/-- Settles O36: SQRS is MULS of a register by itself. -/
theorem sqrsWritesSquare : Obligations.SqrsWritesSquare := by
  intro d a s
  rw [sqrsEqualsMulsOfItself]
  exact mulsWritesFullProduct d a a s

/-- Settles O38: after six rows the limbs hold the product. -/
theorem mulsEqualsOperandScanning : Obligations.MulsEqualsOperandScanning := fun _ _ _ _ =>
  exec_muls_of_toNat (operandScan_toNat _ _)

/-- Settles O39: the columns add up to the product, and each is at most six limb products. -/
theorem mulsEqualsCombaForm : Obligations.MulsEqualsCombaForm :=
  ⟨fun _ _ _ _ => exec_muls_of_toNat (comba_toNat_of_columns fun _ _ => rfl), fun a b k _ => combaColumns_acc_lt a b k⟩

/-- Settles O40: each column of the square is the column of the product with itself. -/
theorem sqrsEqualsCombaSquare : Obligations.SqrsEqualsCombaSquare := by
  intro d a s
  rw [sqrsEqualsMulsOfItself]
  exact exec_muls_of_toNat (comba_toNat_of_columns fun _ => squareColumn_eq _)

end Sys2Proof.Proofs

/-! PROOFS. The family of the 256-bit vector backend (42_vector256.md): what MULP and MULH write for valid sources, that
the round datapaths (R143, R147) emit the same, and that the vector backends agree with the scalar one (R148). -/

/-! ### The product of valid sources (R140, R145, R160) -/
namespace Sys2Proof.Machine

open Sys2Proof.Safety

theorem readV_writeV_same (s : State) (i : VReg) (w : Wide) : (s.writeV i w).readV i = w :=
  (readV_writeV s i i w).trans (if_pos rfl)

/-- With valid sources the defined value is written (R38). -/
theorem writeIfValid_of_valid (s : State) {ok : Bool} (h : ok = true) (d : VReg) (w : Wide) :
    s.writeIfValid ok d w = s.writeV d w :=
  if_pos h

theorem exec_mulp_of_valid {a b : VReg} {s : State} (d : VReg) (ha : validP (s.readV a) = true)
    (hb : validP (s.readV b) = true) :
    exec (.mulp d a b) s = .next (s.writeV d (productL (valueP (s.readV a) * valueP (s.readV b)))) :=
  congrArg Host.Outcome.next (writeIfValid_of_valid s (Bool.and_eq_true_iff.mpr ⟨ha, hb⟩) d _)

theorem exec_mulh_of_valid {a b : VReg} {s : State} (d : VReg) (ha : validH (s.readV a) = true)
    (hb : validH (s.readV b) = true) :
    exec (.mulh d a b) s = .next (s.writeV d (productL (valueH (s.readV a) * valueH (s.readV b)))) :=
  congrArg Host.Outcome.next (writeIfValid_of_valid s (Bool.and_eq_true_iff.mpr ⟨ha, hb⟩) d _)

/-- Writing a product in layout L: its integer, its zero lanes and its frame (R37). -/
theorem writeV_productL (s : State) (d : VReg) {N : Nat} (hN : N < 2 ^ 768) :
    Ran [.v d] s (s.writeV d (productL N)) ∧ natd ((s.writeV d (productL N)).readV d) 24 = N ∧
      ∀ k, 24 ≤ k → k < 32 → lane ((s.writeV d (productL N)).readV d) k = 0 := by
  rw [readV_writeV_same]
  exact ⟨ran_writeV s d _, natd_productL hN, fun k => lane_productL_high N⟩

/-- The product of two valid half-packed integers is below `2^752` (R145). -/
theorem valueH_mul_lt {v w : Wide} (hv : validH v = true) (hw : validH w = true) : valueH v * valueH w < 2 ^ 752 :=
  (Nat.mul_lt_mul'' (valueH_lt_of_valid hv) (valueH_lt_of_valid hw)).trans_eq (Nat.pow_add 2 376 376).symm

/-! ### The round datapaths (R143, R147) -/

/-- A datapath whose row of round i is digit i of a number times a fixed number emits the product (R143). -/
theorem emitted_product {row : Nat → Nat → Nat} (x y : Nat → Lane)
    (h : ∀ i, rowValue (row i) = (x i).toNat * natOf y 16) :
    natd (emitted row) 32 = natOf x 16 * natOf y 16 := by
  have hsum : ∑ i ∈ Finset.range 16, rowValue (row i) * 2 ^ (32 * i) = natOf x 16 * natOf y 16 := by
    simp only [h, sum_rows]
  rw [emitted_value row (hsum.trans_lt (natOf_mul_lt x y rfl)), hsum]

theorem natd_emitted_rowP (a b : Wide) : natd (emitted (rowP a b)) 32 = natd a 16 * natd b 16 :=
  emitted_product (lane a) (lane b) (rowValue_rowP a b)

theorem natd_emitted_rowH (a b : Wide) :
    natd (emitted (rowH a b)) 32 = natOf (fun k => lane a (2 * k)) 16 * natOf (fun k => lane b (2 * k)) 16 :=
  emitted_product (fun k => lane a (2 * k)) (fun k => lane b (2 * k)) (rowValue_rowH a b)

/-- A register whose 32 lanes denote a number below `2^768` is that number in layout L. -/
theorem eq_productL_of_natd {v : Wide} {N : Nat} (h : natd v 32 = N) (hN : N < 2 ^ 768) : v = productL N := by
  rw [natd_eq_mod, Nat.mod_eq_of_lt v.isLt] at h
  apply BitVec.eq_of_toNat_eq
  rw [productL_toNat, Nat.mod_eq_of_lt hN, h]

theorem emitted_rowP_of_valid {a b : Wide} (ha : validP a = true) (hb : validP b = true) :
    emitted (rowP a b) = productL (valueP a * valueP b) := by
  refine eq_productL_of_natd ?_ (product_lt (valueP_lt a) (valueP_lt b))
  rw [natd_emitted_rowP, natd16_of_validP ha, natd16_of_validP hb]

theorem emitted_rowH_of_valid {a b : Wide} (ha : validH a = true) (hb : validH b = true) :
    emitted (rowH a b) = productL (valueH a * valueH b) := by
  refine eq_productL_of_natd ?_ (product_lt (valueH_lt a) (valueH_lt b))
  rw [natd_emitted_rowH, natOf16_of_validH ha, natOf16_of_validH hb]

/-- Two half products a round, over at most seventeen rounds, and a carry of at most 34 (R143). -/
theorem slotsInRound_rowP_lt (a b : Wide) (n j : Nat) : (slotsInRound (rowP a b) n).getD j 0 < 2 ^ 39 :=
  (slotsInRound_le (C := 34) (fun i _ => rowP_le a b i) (by norm_num) n j).trans_lt (by norm_num)

/-- One product of two digits a round, over at most seventeen rounds, and a carry below `2^21` (R147). -/
theorem slotsInRound_rowH_lt {a b : Wide} (ha : validH a = true) (hb : validH b = true) (n j : Nat) :
    (slotsInRound (rowH a b) n).getD j 0 < 2 ^ 53 :=
  (slotsInRound_le (C := 2 ^ 21) (fun _ hi => rowH_le ha hb hi) (by norm_num) n j).trans_lt (by norm_num)

/-! ### Converting an S6 value into a vector layout (R181, R183, R185) -/

/-- What FROMCANP and FROMCANZ write: an S6 value in twelve full lanes (R181, R185). -/
def packedForm (v : Wide) : Wide := elementPacked (valueS6 v)

theorem valueP_packedForm (v : Wide) : valueP (packedForm v) = valueS6 v := natd_elementPacked (valueS6_lt v)

theorem validP_packedForm (v : Wide) : validP (packedForm v) = true :=
  (validP_iff _).mpr fun _ h1 h2 => lane_elementPacked_high (valueS6 v) h1 (by omega)

/-- Layout P of a value has the same limbs as its layout S6 (R188). -/
theorem valueS6_packedForm (v : Wide) : valueS6 (packedForm v) = valueS6 v :=
  (natq_eq_natd _ 6).trans (valueP_packedForm v)

/-- Slot `m` of the half-packed form holds half `m` under a zero lane (R183). -/
theorem lane_elementH_even (v : Wide) {m : Nat} (hm : m < 12) : lane (elementH v) (2 * m) = lane v m := by
  rw [lane_elementH v (by omega), if_pos (by omega), Nat.mul_div_cancel_left m (by decide)]

theorem lane_elementH_odd (v : Wide) {m : Nat} (hm : m < 16) : lane (elementH v) (2 * m + 1) = 0 := by
  rw [lane_elementH v (by omega), if_neg (by omega)]

theorem limb_elementH_high (v : Wide) {k : Nat} (h1 : 12 ≤ k) (h2 : k < 16) : limb (elementH v) k = 0 := by
  rw [limb_eq_append_lanes, lane_elementH_odd v h2, lane_elementH v (by omega), if_neg (by omega)]
  rfl

theorem valueH_elementH (v : Wide) : valueH (elementH v) = valueS6 v :=
  calc valueH (elementH v) = natd v 12 := natOf_congr fun _ hm => lane_elementH_even v hm
    _ = valueS6 v := (natq_eq_natd v 6).symm

theorem validH_elementH {v : Wide} (h : fitsH v = true) : validH (elementH v) = true := by
  refine (validH_iff _).mpr ⟨fun m hm => ⟨?_, lane_elementH_odd v (by omega)⟩, fun k => limb_elementH_high v⟩
  rw [lane_elementH_even v hm]
  exact (fitsH_iff v).mp h m hm

theorem exec_fromcanh_of_fits {a : VReg} {s : State} (d : VReg) (h : fitsH (s.readV a) = true) :
    exec (.fromcanh d a) s = .next (s.writeV d (elementH (s.readV a))) :=
  congrArg Host.Outcome.next (writeIfValid_of_valid s h d _)

/-- TOCANPROD of a product in layout L is the product as MULS writes it (R186). -/
theorem exec_tocanprod_of_productL {p : VReg} {s : State} {N : Nat} (q : VReg) (hp : s.readV p = productL N)
    (hN : N < 2 ^ 768) : exec (.tocanprod q p) s = .next (s.writeV q (productS12 N)) := by
  have hval : valueL (s.readV p) = N := by rw [hp]; exact natd_productL hN
  rw [← hval]
  rfl

/-- FROMCANZ and MULZ do what FROMCANP and MULP do: layout Z is layout P by another name (R34, R35). -/
theorem exec_fromcanz_eq_fromcanp (d a : VReg) (s : State) : exec (.fromcanz d a) s = exec (.fromcanp d a) s := rfl

theorem exec_mulz_eq_mulp (d a b : VReg) (s : State) : exec (.mulz d a b) s = exec (.mulp d a b) s := rfl

/-! ### A vector backend against the scalar one (R148) -/

/-- What R148 asks of a backend: `conv` writes the form `form` of an S6 value that `fits`, and `mul` writes the product
of the values of two such forms. -/
structure VectorBackend (conv : VReg → VReg → Instr) (mul : VReg → VReg → VReg → Instr) (fits : Wide → Prop)
    (form : Wide → Wide) : Prop where
  convert (e a : VReg) (s : State) (h : fits (s.readV a)) : exec (conv e a) s = .next (s.writeV e (form (s.readV a)))
  multiply (p : VReg) {e f : VReg} {s : State} {x y : Wide} (hx : fits x) (hy : fits y) (he : s.readV e = form x)
    (hf : s.readV f = form y) : exec (mul p e f) s = .next (s.writeV p (productL (valueS6 x * valueS6 y)))

theorem vectorBackendP : VectorBackend .fromcanp .mulp (fun _ => True) packedForm where
  convert _ _ _ _ := rfl
  multiply p e f s x y _ _ he hf := by
    rw [exec_mulp_of_valid p (he ▸ validP_packedForm x) (hf ▸ validP_packedForm y), he, hf, valueP_packedForm,
      valueP_packedForm]

theorem vectorBackendZ : VectorBackend .fromcanz .mulz (fun _ => True) packedForm where
  convert e a s h := (exec_fromcanz_eq_fromcanp e a s).trans (vectorBackendP.convert e a s h)
  multiply p e f s _ _ hx hy he hf := (exec_mulz_eq_mulp p e f s).trans (vectorBackendP.multiply p hx hy he hf)

theorem vectorBackendH : VectorBackend .fromcanh .mulh (fun v => fitsH v = true) elementH where
  convert e _ _ h := exec_fromcanh_of_fits e h
  multiply p e f s x y hx hy he hf := by
    rw [exec_mulh_of_valid p (he ▸ validH_elementH hx) (hf ▸ validH_elementH hy), he, hf, valueH_elementH,
      valueH_elementH]

/-- Converting `a` into `e` and `b` into `f`, multiplying those into `p` and converting the product back into `q` leaves
`w` in `V[q]`. -/
def BackendLeaves (conv : VReg → VReg → Instr) (mul : VReg → VReg → VReg → Instr) (a b e f p q : VReg) (s : State)
    (w : Wide) : Prop :=
  ∃ t₁ t₂ t₃ t₄, exec (conv e a) s = .next t₁ ∧ exec (conv f b) t₁ = .next t₂ ∧ exec (mul p e f) t₂ = .next t₃ ∧
    exec (.tocanprod q p) t₃ = .next t₄ ∧ t₄.readV q = w

namespace VectorBackend

variable {conv : VReg → VReg → Instr} {mul : VReg → VReg → VReg → Instr} {fits : Wide → Prop} {form : Wide → Wide}
  {e f : VReg} {s : State}

/-- Multiplying two converted registers and converting the product back leaves the product of their values in S12. -/
theorem multiply_tocanprod (B : VectorBackend conv mul fits form) (p q : VReg) {x y : Wide} (hx : fits x)
    (hy : fits y) (he : s.readV e = form x) (hf : s.readV f = form y) :
    ∃ t u, exec (mul p e f) s = .next t ∧ exec (.tocanprod q p) t = .next u ∧
      u.readV q = productS12 (valueS6 x * valueS6 y) := by
  refine ⟨_, _, B.multiply p hx hy he hf,
    exec_tocanprod_of_productL q ?_ (product_lt (valueS6_lt x) (valueS6_lt y)), ?_⟩
  · exact readV_writeV_same _ p _
  · exact readV_writeV_same _ q _

/-- The square with one converted register. -/
theorem square {a : VReg} (B : VectorBackend conv mul fits form) (e p q : VReg) (ha : fits (s.readV a)) :
    ∃ t₁ t₂ t₃, exec (conv e a) s = .next t₁ ∧ exec (mul p e e) t₁ = .next t₂ ∧
      exec (.tocanprod q p) t₂ = .next t₃ ∧
      t₃.readV q = productS12 (valueS6 (s.readV a) * valueS6 (s.readV a)) := by
  have he : (s.writeV e (form (s.readV a))).readV e = form (s.readV a) := readV_writeV_same s e _
  obtain ⟨t₂, t₃, h⟩ := B.multiply_tocanprod p q ha ha he he
  exact ⟨_, t₂, t₃, B.convert e a s ha, h⟩

/-- The product with both sources converted. The second conversion reads `z`, what the first one left in `b`: it has
`b`'s value, and where it overwrites the converted `a` it writes the same there. -/
theorem product {a b : VReg} {z : Wide} (B : VectorBackend conv mul fits form) (p q : VReg)
    (hz : (s.writeV e (form (s.readV a))).readV b = z) (hfa : fits (s.readV a)) (hfz : fits z)
    (hval : valueS6 z = valueS6 (s.readV b)) (hef : f ≠ e ∨ form z = form (s.readV a)) :
    BackendLeaves conv mul a b e f p q s (productS12 (valueS6 (s.readV a) * valueS6 (s.readV b))) := by
  generalize ht : s.writeV e (form (s.readV a)) = t₁ at hz
  have he : t₁.readV e = form (s.readV a) := ht ▸ readV_writeV_same s e _
  have hconv : exec (conv f b) t₁ = .next (t₁.writeV f (form z)) := hz ▸ B.convert f b t₁ (hz ▸ hfz)
  have he' : (t₁.writeV f (form z)).readV e = form (s.readV a) := by
    rw [readV_writeV]
    split
    · next h => exact hef.resolve_left (not_not.mpr h)
    · exact he
  have hf' : (t₁.writeV f (form z)).readV f = form z := readV_writeV_same t₁ f _
  obtain ⟨t₃, t₄, h⟩ := B.multiply_tocanprod p q hfa hfz he' hf'
  rw [hval] at h
  exact ⟨t₁, _, t₃, t₄, (B.convert e a s hfa).trans (congrArg _ ht), hconv, h⟩

/-- Where the packed form of `a` overwrites `b`, which is `a` itself, it has the value of `b`. -/
theorem product_of_packed {a b : VReg} (B : VectorBackend conv mul (fun _ => True) packedForm) (p q : VReg)
    (hreg : a = b ∨ (e ≠ b ∧ f ≠ e)) :
    BackendLeaves conv mul a b e f p q s (productS12 (valueS6 (s.readV a) * valueS6 (s.readV b))) := by
  have hval : valueS6 ((s.writeV e (packedForm (s.readV a))).readV b) = valueS6 (s.readV b) := by
    rw [readV_writeV]
    split
    · next h =>
      rw [valueS6_packedForm, hreg.resolve_right fun hn => hn.1 h]
    · rfl
  refine B.product p q rfl trivial trivial hval (hreg.symm.imp And.right ?_)
  rintro rfl
  exact congrArg elementPacked hval

/-- With `b` not overwritten the second conversion reads `b` itself. -/
theorem product_of_kept {a b : VReg} (B : VectorBackend conv mul fits form) (p q : VReg) (hb : e ≠ b)
    (hreg : a = b ∨ f ≠ e) (hfa : fits (s.readV a)) (hfb : fits (s.readV b)) :
    BackendLeaves conv mul a b e f p q s (productS12 (valueS6 (s.readV a) * valueS6 (s.readV b))) := by
  refine B.product p q ?_ hfa hfb rfl (hreg.symm.imp_right ?_)
  · rw [readV_writeV, if_neg hb]
  · rintro rfl
    rfl

end VectorBackend

end Sys2Proof.Machine

namespace Sys2Proof.Proofs

open Sys2Proof.Machine Sys2Proof.Safety

/-- Settles O41: the sources are valid, and the product fits the 24 lanes it is written to. -/
theorem mulpWritesFullProduct : Obligations.MulpWritesFullProduct := by
  intro d a b s h
  have ha : validP (s.readV a) = true := (validP_iff _).mpr fun k h1 h2 => (h k h1 h2).1
  have hb : validP (s.readV b) = true := (validP_iff _).mpr fun k h1 h2 => (h k h1 h2).2
  exact ⟨_, exec_mulp_of_valid d ha hb, writeV_productL s d (product_lt (valueP_lt _) (valueP_lt _))⟩

/-- Settles O42: the sources are valid, so each denotes an integer below `2^376`. -/
theorem mulhWritesFullProduct : Obligations.MulhWritesFullProduct := by
  intro d a b s h
  have ha : validH (s.readV a) = true := (validH_iff _).mpr (h _ (by simp))
  have hb : validH (s.readV b) = true := (validH_iff _).mpr (h _ (by simp))
  obtain ⟨hran, hval, hhigh⟩ := writeV_productL s d (product_lt (valueH_lt (s.readV a)) (valueH_lt (s.readV b)))
  exact ⟨_, exec_mulh_of_valid d ha hb, hran, hval, hval.trans_lt (valueH_mul_lt ha hb), hhigh⟩

/-- Settles O46: the rows of the sixteen broadcast lanes add up to the product. -/
theorem mulpEqualsRoundDatapath : Obligations.MulpEqualsRoundDatapath := by
  refine ⟨natd_emitted_rowP, fun d a b s ha hb => ?_⟩
  rw [emitted_rowP_of_valid ha hb, exec_mulp_of_valid d ha hb]

/-- Settles O47. -/
theorem mulpDatapathSlotsFitThirtyNineBits : Obligations.MulpDatapathSlotsFitThirtyNineBits :=
  fun a b n j _ => slotsInRound_rowP_lt a b n j

/-- Settles O48: the rows of the sixteen broadcast digits add up to the product, and a valid digit is below `2^24`. -/
theorem mulhEqualsRoundDatapath : Obligations.MulhEqualsRoundDatapath := by
  intro d a b s ha hb
  refine ⟨?_, fun n j _ => slotsInRound_rowH_lt ha hb n j⟩
  rw [emitted_rowH_of_valid ha hb, exec_mulh_of_valid d ha hb]

/-- Settles O57: each backend leaves in S12 the product of the S6 values, which is what MULS writes. -/
theorem vectorBackendsAgreeWithScalar : Obligations.VectorBackendsAgreeWithScalar := by
  intro a b e f p q s m hm
  have hq : m.readV q = productS12 (valueS6 (s.readV a) * valueS6 (s.readV b)) := by
    cases hm
    exact readV_writeV_same s q _
  rw [hq]
  refine ⟨vectorBackendP.product_of_packed p q, vectorBackendZ.product_of_packed p q,
    vectorBackendH.product_of_kept p q, ?_, ?_, ?_⟩
  · rintro rfl
    exact vectorBackendP.square e p q trivial
  · rintro rfl
    exact vectorBackendZ.square e p q trivial
  · rintro rfl hfit
    exact vectorBackendH.square e p q hfit

end Sys2Proof.Proofs

/-! PROOFS. The family of the experimental 512-bit vector backend (43_vector512.md): layout Z is layout P by another name,
so MULZ writes what MULP writes (R160); its round datapath has other rows and another bound of a slot, and emits the same
register as that of MULP (R162); the unfinished commands fail loudly (R163 to R165). -/

/-! ### The round datapath of MULZ (R162) -/
namespace Sys2Proof.Machine

/-- The 32 lanes of a register determine it (R22). -/
theorem eq_of_natd_eq {v w : Wide} (h : natd v 32 = natd w 32) : v = w := by
  rw [natd_eq_mod, natd_eq_mod, Nat.mod_eq_of_lt v.isLt, Nat.mod_eq_of_lt w.isLt] at h
  exact BitVec.eq_of_toNat_eq h

theorem natd_emitted_rowZ (a b : Wide) : natd (emitted (rowZ a b)) 32 = natd a 16 * natd b 16 :=
  emitted_product (lane a) (lane b) (rowValue_rowZ a b)

/-- Whole products and split halves emit the same register, for all operands (R143, R162). -/
theorem emitted_rowZ_eq_rowP (a b : Wide) : emitted (rowZ a b) = emitted (rowP a b) :=
  eq_of_natd_eq ((natd_emitted_rowZ a b).trans (natd_emitted_rowP a b).symm)

/-- One product of two lanes a round, over at most seventeen rounds, and a carry below `2^37`, for all operands (R162). -/
theorem slotsInRound_rowZ_lt (a b : Wide) (n j : Nat) : (slotsInRound (rowZ a b) n).getD j 0 < 2 ^ 69 :=
  (slotsInRound_le (C := 2 ^ 37) (fun i _ => rowZ_le a b i) (by norm_num) n j).trans_lt (by norm_num)

/-- The padding lanes of layout Z are those of layout P (R34, R35). -/
theorem validZ_eq_validP (v : Wide) : validZ v = validP v := rfl

end Sys2Proof.Machine

namespace Sys2Proof.Proofs

open Sys2Proof.Machine Sys2Proof.Safety

/-- Settles O43: MULZ is MULP, whose product fits the 24 lanes it is written to. -/
theorem mulzWritesFullProduct : Obligations.MulzWritesFullProduct := by
  intro d a b s h
  rw [exec_mulz_eq_mulp]
  exact mulpWritesFullProduct d a b s h

/-- Settles O49: for valid operands the datapath of MULP, which emits the same register, emits what MULP and so MULZ
writes. -/
theorem mulzEqualsRoundDatapath : Obligations.MulzEqualsRoundDatapath := by
  intro d a b s ha hb
  rw [validZ_eq_validP] at ha hb
  refine ⟨?_, fun n j _ => slotsInRound_rowZ_lt (s.readV a) (s.readV b) n j⟩
  rw [exec_mulz_eq_mulp, emitted_rowZ_eq_rowP]
  exact mulpEqualsRoundDatapath.2 d a b s ha hb

/-- Settles O45: each of the three enters the fault NOT_IMPLEMENTED with its own word, whatever the state. -/
theorem unfinishedCommandsFailLoudly : Obligations.UnfinishedCommandsFailLoudly := fun _ _ _ s _ =>
  ⟨⟨_, rfl, faulted_raise s _ _⟩, ⟨_, rfl, faulted_raise s _ _⟩, ⟨_, rfl, faulted_raise s _ _⟩⟩

end Sys2Proof.Proofs

/-! PROOFS. The family of the conversions (44_conversion.md): what each conversion writes, as lanes and limbs of its source
(R188), and the round trips between the canonical layout and the others (R187). -/

/-! ### Elements and products as they are written (R180, R181, R186) -/
namespace Sys2Proof.Machine

open Sys2Proof.Safety

/-- Writing an element in layout S6: its integer, its zero limbs and its frame (R180). -/
theorem writeV_elementS6 (s : State) (d : VReg) {N : Nat} (hN : N < 2 ^ 384) :
    Ran [.v d] s (s.writeV d (elementS6 N)) ∧ natq ((s.writeV d (elementS6 N)).readV d) 6 = N ∧
      ∀ k, 6 ≤ k → k < 16 → limb ((s.writeV d (elementS6 N)).readV d) k = 0 := by
  rw [readV_writeV_same]
  exact ⟨ran_writeV s d _, natq_elementS6 hN, fun k => limb_elementS6_high N⟩

/-- Writing an element in layout P or Z: its integer, its zero lanes and its frame (R181). -/
theorem writeV_elementPacked (s : State) (d : VReg) {N : Nat} (hN : N < 2 ^ 384) :
    Ran [.v d] s (s.writeV d (elementPacked N)) ∧ natd ((s.writeV d (elementPacked N)).readV d) 12 = N ∧
      ∀ k, 12 ≤ k → k < 32 → lane ((s.writeV d (elementPacked N)).readV d) k = 0 := by
  rw [readV_writeV_same]
  exact ⟨ran_writeV s d _, natd_elementPacked hN, fun k => lane_elementPacked_high N⟩

/-- Writing a product in layout S12: its integer, its zero limbs and its frame (R186). -/
theorem writeV_productS12 (s : State) (d : VReg) {N : Nat} (hN : N < 2 ^ 768) :
    Ran [.v d] s (s.writeV d (productS12 N)) ∧ natq ((s.writeV d (productS12 N)).readV d) 12 = N ∧
      ∀ k, 12 ≤ k → k < 16 → limb ((s.writeV d (productS12 N)).readV d) k = 0 := by
  rw [readV_writeV_same]
  exact ⟨ran_writeV s d _, natq_productS12 hN, fun k => limb_productS12_high N⟩

/-- Six limbs and twelve lanes of a number are the same bits (R22). -/
theorem elementS6_eq_elementPacked (N : Nat) : elementS6 N = elementPacked N :=
  BitVec.eq_of_toNat_eq ((elementS6_toNat N).trans (elementPacked_toNat N).symm)

/-- The six limbs of a register denote what its twelve low lanes do (R22). -/
theorem valueP_eq_valueS6 (v : Wide) : valueP v = valueS6 v := (natq_eq_natd v 6).symm

/-- A sequence put into the low lanes of a register is read back lane by lane. -/
theorem lane_putLanes_natOf (l : Nat → Lane) (n : Nat) {k : Nat} (hk : k < 32) :
    lane (putLanes (natOf l n) n) k = if k < n then l k else 0 :=
  (lane_putLanes _ n hk).trans (if_ctx_congr Iff.rfl (digitOf_natOf l) fun _ => rfl)

/-- A sequence put into the low limbs of a register is read back limb by limb. -/
theorem limb_putLimbs_natOf (l : Nat → Word) (n : Nat) {k : Nat} (hk : k < 16) :
    limb (putLimbs (natOf l n) n) k = if k < n then l k else 0 :=
  (limb_putLimbs _ n hk).trans (if_ctx_congr Iff.rfl (digitOf_natOf l) fun _ => rfl)

/-! ### The packed form, which layouts S6, P and Z share (R188) -/

theorem packedForm_eq_elementS6 (v : Wide) : packedForm v = elementS6 (valueS6 v) :=
  (elementS6_eq_elementPacked _).symm

theorem packedForm_eq_elementPacked (v : Wide) : packedForm v = elementPacked (valueP v) :=
  congrArg elementPacked (valueP_eq_valueS6 v).symm

theorem packedForm_toNat (v : Wide) : (packedForm v).toNat = v.toNat % 2 ^ 384 := by
  rw [packedForm, elementPacked_toNat, valueS6_eq_mod, Nat.mod_mod]

theorem lane_packedForm (v : Wide) {k : Nat} (hk : k < 32) :
    lane (packedForm v) k = if k < 12 then lane v k else 0 := by
  rw [packedForm_eq_elementPacked]
  exact lane_putLanes_natOf (lane v) 12 hk

theorem limb_packedForm (v : Wide) {k : Nat} (hk : k < 16) :
    limb (packedForm v) k = if k < 6 then limb v k else 0 := by
  rw [packedForm_eq_elementS6]
  exact limb_putLimbs_natOf (limb v) 6 hk

theorem packedForm_packedForm (v : Wide) : packedForm (packedForm v) = packedForm v :=
  congrArg elementPacked (valueS6_packedForm v)

/-- For a valid layout P (or Z) register the packed form keeps the padding lanes too (R34). -/
theorem lane_packedForm_of_validP {v : Wide} (h : validP v = true) {k : Nat} (hk : k < 32) :
    lane (packedForm v) k = if k < 16 then lane v k else 0 := by
  rw [lane_packedForm v hk]
  split
  · rw [if_pos (by omega)]
  · split
    · exact ((validP_iff v).mp h k (by omega) (by omega)).symm
    · rfl

/-! ### The gathered form, which TOCANH writes (R182) -/

/-- The twelve digits of a layout H register as an element in layout S6 (R182). -/
def gatheredForm (v : Wide) : Wide := elementS6 (valueH v)

theorem lane_gatheredForm (v : Wide) {m : Nat} (hm : m < 32) :
    lane (gatheredForm v) m = if m < 12 then lane v (2 * m) else 0 := by
  rw [gatheredForm, elementS6_eq_elementPacked]
  exact lane_putLanes_natOf (fun m => lane v (2 * m)) 12 hm

/-- The digits of a valid H register are below `2^24`, so gathered they fit layout H again (R36, R183). -/
theorem fitsH_gatheredForm {v : Wide} (h : validH v = true) : fitsH (gatheredForm v) = true := by
  refine (fitsH_iff _).mpr fun m hm => ?_
  rw [lane_gatheredForm v (by omega), if_pos hm]
  exact (((validH_iff v).mp h).1 m hm).1

/-- Scattering what was gathered from a valid H register gives it again: outside its digits it is 0 (R187). -/
theorem elementH_gatheredForm {v : Wide} (h : validH v = true) : elementH (gatheredForm v) = v := by
  obtain ⟨hslots, hpad⟩ := (validH_iff v).mp h
  refine wide_ext_limbs fun k hk => ?_
  rcases Nat.lt_or_ge k 12 with hk12 | hk12
  · have heven : lane (elementH (gatheredForm v)) (2 * k) = lane v (2 * k) := by
      rw [lane_elementH_even _ hk12, lane_gatheredForm v (by omega), if_pos hk12]
    rw [limb_eq_append_lanes, limb_eq_append_lanes v, heven, lane_elementH_odd _ hk, (hslots k hk12).2]
  · rw [limb_elementH_high _ hk12 hk, hpad k hk12 hk]

/-- Gathering what was scattered gives the six limbs again (R187). -/
theorem gatheredForm_elementH (v : Wide) : gatheredForm (elementH v) = packedForm v := by
  rw [gatheredForm, valueH_elementH, packedForm_eq_elementS6]

/-! ### The conversions as functions of the source's bits (R188) -/

/-- From a source that `fits`, the conversion `conv` writes the source's form `form` and nothing else. -/
def Converts (conv : VReg → VReg → Instr) (fits : Wide → Prop) (form : Wide → Wide) : Prop :=
  ∀ (d a : VReg) (s : State), fits (s.readV a) → exec (conv d a) s = .next (s.writeV d (form (s.readV a)))

theorem converts_fromcanp : Converts .fromcanp (fun _ => True) packedForm := vectorBackendP.convert

theorem converts_fromcanz : Converts .fromcanz (fun _ => True) packedForm := vectorBackendZ.convert

theorem converts_fromcanh : Converts .fromcanh (fun v => fitsH v = true) elementH := vectorBackendH.convert

theorem converts_tocanp : Converts .tocanp (fun _ => True) packedForm := by
  intro d a s _
  rw [packedForm_eq_elementS6, ← valueP_eq_valueS6]
  rfl

/-- TOCANZ does what TOCANP does: layout Z is layout P by another name (R34, R35). -/
theorem exec_tocanz_eq_tocanp (d a : VReg) (s : State) : exec (.tocanz d a) s = exec (.tocanp d a) s := rfl

theorem converts_tocanz : Converts .tocanz (fun _ => True) packedForm := fun d a s h =>
  (exec_tocanz_eq_tocanp d a s).trans (converts_tocanp d a s h)

theorem converts_tocanh : Converts .tocanh (fun _ => True) gatheredForm := fun _ _ _ _ => rfl

theorem converts_tocanprod : Converts .tocanprod (fun _ => True) (fun v => productS12 (valueL v)) :=
  fun _ _ _ _ => rfl

namespace Converts

variable {conv back : VReg → VReg → Instr} {fits fits' : Wide → Prop} {form form' : Wide → Wide}

/-- A conversion leaves its form of the source in the destination, whichever register that is. -/
theorem reads (h : Converts conv fits form) (d a : VReg) (s : State) (ha : fits (s.readV a)) :
    ∃ t, exec (conv d a) s = .next t ∧ t.readV d = form (s.readV a) :=
  ⟨_, h d a s ha, readV_writeV_same s d _⟩

/-- Two conversions in a row, through any register, leave the form of the form. -/
theorem reads_reads (h : Converts conv fits form) (h' : Converts back fits' form') (e d a : VReg) (s : State)
    (ha : fits (s.readV a)) (he : fits' (form (s.readV a))) :
    ∃ t u, exec (conv e a) s = .next t ∧ exec (back d e) t = .next u ∧ u.readV d = form' (form (s.readV a)) := by
  obtain ⟨t, ht, hform⟩ := h.reads e a s ha
  rw [← hform] at he ⊢
  obtain ⟨u, hu, hback⟩ := h'.reads d e t he
  exact ⟨t, u, ht, hu, hback⟩

/-- As bits, a conversion to the packed form keeps the low 384 (R188). -/
theorem packed_toNat (h : Converts conv (fun _ => True) packedForm) (d a : VReg) (s : State) :
    ∃ t, exec (conv d a) s = .next t ∧ (t.readV d).toNat = (s.readV a).toNat % 2 ^ 384 := by
  obtain ⟨t, ht, hd⟩ := h.reads d a s trivial
  exact ⟨t, ht, hd ▸ packedForm_toNat _⟩

/-- Two conversions between the packed layouts leave the packed form of the source. -/
theorem packed_round_trip (h : Converts conv (fun _ => True) packedForm)
    (h' : Converts back (fun _ => True) packedForm) (e d a : VReg) (s : State) :
    ∃ t u, exec (conv e a) s = .next t ∧ exec (back d e) t = .next u ∧ u.readV d = packedForm (s.readV a) := by
  rw [← packedForm_packedForm]
  exact h.reads_reads h' e d a s trivial trivial

end Converts

end Sys2Proof.Machine

namespace Sys2Proof.Proofs

open Sys2Proof.Machine Sys2Proof.Safety

/-- Settles O50: the values of layouts P, Z and H fit the six limbs they are written to. -/
theorem toCanonicalKeepsValue : Obligations.ToCanonicalKeepsValue := fun _ _ s =>
  ⟨⟨_, rfl, writeV_elementS6 s _ (valueP_lt _)⟩, ⟨_, rfl, writeV_elementS6 s _ (valueZ_lt _)⟩,
    ⟨_, rfl, writeV_elementS6 s _ (valueH_lt _)⟩⟩

/-- Settles O51: an S6 value fits the twelve lanes it is written to. -/
theorem fromCanonicalPackedKeepsValue : Obligations.FromCanonicalPackedKeepsValue := fun _ _ s =>
  ⟨⟨_, rfl, writeV_elementPacked s _ (valueS6_lt _)⟩, ⟨_, rfl, writeV_elementPacked s _ (valueS6_lt _)⟩⟩

/-- Settles O52: the half-packed form of a value that fits is written, lane by lane as `elementH` gives it. -/
theorem fromcanhKeepsFittingValue : Obligations.FromcanhKeepsFittingValue := by
  intro d a s h
  have hfit : fitsH (s.readV a) = true := (fitsH_iff _).mpr h
  refine ⟨_, exec_fromcanh_of_fits d hfit, ran_writeV s d _, ?_⟩
  rw [readV_writeV_same]
  exact ⟨fun m hm => ⟨lane_elementH_even _ hm, lane_elementH_odd _ (by omega)⟩, fun k => limb_elementH_high _,
    valueH_elementH _, validH_elementH hfit⟩

/-- Settles O53: a product of layout L fits the twelve limbs it is written to. -/
theorem tocanprodKeepsProduct : Obligations.TocanprodKeepsProduct := fun _ _ s =>
  ⟨_, rfl, writeV_productS12 s _ (valueL_lt _)⟩

/-- Settles O54: four conversions write the packed form, TOCANPROD the S12 product, TOCANH and FROMCANH the gathered and
the half-packed form. -/
theorem conversionsAsBits : Obligations.ConversionsAsBits := by
  intro d a s
  refine ⟨?_, ?_, ?_, fun hfit => ?_⟩
  · intro i hi
    simp only [List.mem_cons, List.not_mem_nil, or_false] at hi
    obtain rfl | rfl | rfl | rfl := hi
    · exact converts_tocanp.packed_toNat d a s
    · exact converts_fromcanp.packed_toNat d a s
    · exact converts_tocanz.packed_toNat d a s
    · exact converts_fromcanz.packed_toNat d a s
  · obtain ⟨t, ht, hd⟩ := converts_tocanprod.reads d a s trivial
    refine ⟨t, ht, ?_⟩
    rw [hd, productS12_toNat, valueL_eq_mod, Nat.mod_mod]
  · obtain ⟨t, ht, hd⟩ := converts_tocanh.reads d a s trivial
    exact ⟨t, ht, fun m hm => hd ▸ lane_gatheredForm _ hm⟩
  · obtain ⟨t, ht, hd⟩ := converts_fromcanh.reads d a s ((fitsH_iff _).mpr hfit)
    exact ⟨t, ht, fun j hj => hd ▸ lane_elementH _ hj⟩

/-- Settles O55: in layouts P and Z the source's packed form comes back, in layout H the source itself. -/
theorem toThenFromCanonicalIsIdentity : Obligations.ToThenFromCanonicalIsIdentity := by
  intro e d a s
  refine ⟨fun hP => ?_, fun hZ => ?_, fun hH => ?_⟩
  · obtain ⟨t, u, ht, hu, hd⟩ := converts_tocanp.packed_round_trip converts_fromcanp e d a s
    exact ⟨t, u, ht, hu, fun k hk => hd ▸ lane_packedForm_of_validP hP hk⟩
  · obtain ⟨t, u, ht, hu, hd⟩ := converts_tocanz.packed_round_trip converts_fromcanz e d a s
    rw [validZ_eq_validP] at hZ
    exact ⟨t, u, ht, hu, fun k hk => hd ▸ lane_packedForm_of_validP hZ hk⟩
  · obtain ⟨t, u, ht, hu, hd⟩ := converts_tocanh.reads_reads converts_fromcanh e d a s trivial (fitsH_gatheredForm hH)
    exact ⟨t, u, ht, hu, hd.trans (elementH_gatheredForm hH)⟩

/-- Settles O56: in each layout the source's packed form comes back, which holds its six limbs. -/
theorem fromThenToCanonicalIsIdentity : Obligations.FromThenToCanonicalIsIdentity := by
  intro e d a s
  refine ⟨?_, ?_, fun hfit => ?_⟩
  · obtain ⟨t, u, ht, hu, hd⟩ := converts_fromcanp.packed_round_trip converts_tocanp e d a s
    exact ⟨t, u, ht, hu, fun k hk => hd ▸ limb_packedForm _ hk⟩
  · obtain ⟨t, u, ht, hu, hd⟩ := converts_fromcanz.packed_round_trip converts_tocanz e d a s
    exact ⟨t, u, ht, hu, fun k hk => hd ▸ limb_packedForm _ hk⟩
  · obtain ⟨t, u, ht, hu, hd⟩ := converts_fromcanh.reads_reads converts_tocanh e d a s hfit trivial
    rw [gatheredForm_elementH] at hd
    exact ⟨t, u, ht, hu, fun k hk => hd ▸ limb_packedForm _ hk⟩

end Sys2Proof.Proofs

/-! PROOFS. The family of the lane primitives (45_lane_primitives.md): each command writes a register given lane by lane,
which is read back lane by lane; the two halves of a lane product (R200, R201, R204), and LSHR as a shift of the whole
register by one lane (R202). -/

/-! ### Lane products, the lane shift and the lane insertion (R200 to R204) -/
namespace Sys2Proof.Machine

open Sys2Proof.Safety

/-- Writing a register given by its lanes: its frame and its lanes (R22). -/
theorem writeV_ofLanes (s : State) (d : VReg) (l : Nat → Lane) :
    Ran [.v d] s (s.writeV d (ofLanes l)) ∧ ∀ j < 32, lane ((s.writeV d (ofLanes l)).readV d) j = l j := by
  rw [readV_writeV_same]
  exact ⟨ran_writeV s d _, fun j => lane_ofLanes l⟩

theorem mulLow_toNat (x y : Lane) : (mulLow x y).toNat = x.toNat * y.toNat % 2 ^ 32 := by
  rw [mulLow, BitVec.toNat_ofNat]

/-- The high half is the quotient, because the low half is the remainder of the exact product (R201, R204). -/
theorem mulHigh_toNat (x y : Lane) : (mulHigh x y).toNat = x.toNat * y.toNat / 2 ^ 32 := by
  have hsum := mulLow_add_mulHigh x y
  rw [← hsum, Nat.add_mul_div_left _ _ (Nat.two_pow_pos 32), Nat.div_eq_of_lt (mulLow x y).isLt, Nat.zero_add]

/-- There is no lane above lane 31. -/
theorem lane_eq_zero_of_ge (v : Wide) {k : Nat} (hk : 32 ≤ k) : lane v k = 0 := by
  apply BitVec.eq_of_toNat_eq
  have hv : v.toNat < 2 ^ (32 * k) := BitVec.toNat_lt_twoPow_of_le (by omega)
  rw [lane_toNat, Nat.div_eq_of_lt hv]
  rfl

theorem lane_ushiftRight (v : Wide) (k : Nat) : lane (v >>> 32) k = lane v (k + 1) := by
  apply BitVec.eq_of_toNat_eq
  rw [lane_toNat, lane_toNat, BitVec.toNat_ushiftRight, Nat.shiftRight_eq_div_pow, Nat.div_div_eq_div_mul,
    ← Nat.pow_add, Nat.mul_succ, Nat.add_comm]

/-- Moving every lane one position toward lane 0 shifts the register right by the bits of one lane (R202). -/
theorem shiftRightLane_eq (v : Wide) : shiftRightLane v = v >>> 32 := by
  apply wide_ext_lanes
  intro k hk
  rw [shiftRightLane, lane_ofLanes _ hk, lane_ushiftRight]
  split
  · rfl
  · exact (lane_eq_zero_of_ge v (by omega)).symm

end Sys2Proof.Machine

namespace Sys2Proof.Proofs

open Sys2Proof.Machine Sys2Proof.Safety

/-- Settles O58: the lanes written are the low and the high halves of the lane products, which recombine exactly. -/
theorem laneMultiplyIsWidening : Obligations.LaneMultiplyIsWidening := by
  intro d a b imm s
  obtain ⟨hlow, hlowLane⟩ := writeV_ofLanes s d fun j => mulLow (lane (s.readV a) imm) (lane (s.readV b) j)
  obtain ⟨hhigh, hhighLane⟩ := writeV_ofLanes s d fun j => mulHigh (lane (s.readV a) imm) (lane (s.readV b) j)
  refine ⟨_, _, rfl, rfl, hlow, hhigh, fun j hj => ?_, fun j hj => ?_, fun j hj => ?_⟩
  · rw [hlowLane j hj, mulLow_toNat]
  · rw [hhighLane j hj, mulHigh_toNat]
  · rw [hlowLane j hj, hhighLane j hj, Nat.add_comm, Nat.mul_comm, mulLow_add_mulHigh]

/-- Settles O59: the register written is the source shifted right by 32 bits, so its lanes are the source's, one up. -/
theorem lshrShiftsOneLane : Obligations.LshrShiftsOneLane := by
  intro d a s
  refine ⟨_, rfl, ran_writeV s d _, ?_⟩
  rw [readV_writeV_same, shiftRightLane_eq]
  refine ⟨fun j _ => lane_ushiftRight _ j, ?_, ?_⟩
  · rw [lane_ushiftRight, lane_eq_zero_of_ge _ (Nat.le_refl 32)]
  · rw [BitVec.toNat_ushiftRight, Nat.shiftRight_eq_div_pow]

/-- Settles O60: the register written is given by exactly these lanes of the old registers. -/
theorem linsInsertsLowLane : Obligations.LinsInsertsLowLane := fun d a imm s =>
  ⟨_, rfl, writeV_ofLanes s d fun j => if j = imm.val then lane (s.readV a) 0 else lane (s.readV d) j⟩

end Sys2Proof.Proofs

/-! PROOFS. The family of data movement (46_move.md): VZERO, GETQ and SETQ complete in every state and write one
register. -/

/-! ### Writing a limb to an X register and replacing one in a V register (R221, R222) -/
namespace Sys2Proof.Machine

theorem readX_writeX_same (s : State) (i : XReg) (w : Word) : (s.writeX i w).readX i = w :=
  (readX_writeX s i i w).trans (if_pos rfl)

/-- A register with limb `i` replaced has the new limb there and the old one elsewhere (R222). -/
theorem limb_setLimb (v : Wide) (i : Nat) (x : Word) {k : Nat} (hk : k < 16) :
    limb (setLimb v i x) k = if k = i then x else limb v k :=
  limb_ofLimbs _ hk

end Sys2Proof.Machine

namespace Sys2Proof.Proofs

open Sys2Proof.Machine Sys2Proof.Safety

/-- Settles O24: the value written to `X[d]` is limb `imm` of `V[a]`, which is these bits of it. -/
theorem getqDeliversLimb : Obligations.GetqDeliversLimb := by
  intro d a imm s
  refine ⟨_, rfl, ran_writeX s d _, ?_⟩
  rw [readX_writeX_same, limb_toNat_eq_bits]

/-- Settles O25: the register written is the old `V[d]` with limb `imm` replaced, whatever `V[d]` and `X[a]` hold. -/
theorem setqReplacesOneLimb : Obligations.SetqReplacesOneLimb := by
  intro d a imm s
  refine ⟨_, rfl, ran_writeV s d _, fun k hk => ?_⟩
  rw [readV_writeV_same, limb_setLimb _ _ _ hk]

/-- Settles O23: the command is the write of 0 to the whole register, in every state. -/
theorem vzeroWritesZero : Obligations.VzeroWritesZero := fun d s =>
  ⟨_, rfl, ran_writeV s d 0, readV_writeV_same s d 0⟩

end Sys2Proof.Proofs

/-! PROOFS. The family of the exceptions (60_exceptions.md): what a halted block still answers, which faults a command
that halts the block has raised, and the idle block. -/

/-! ### The halted block (R238) and commands that halt it (R230, R235) -/
namespace Sys2Proof.Machine

open Sys2Proof.Safety

/-- What a halted block ignores is no host read. -/
theorem HostTx.answer_of_ignored {t : HostTx} (h : t.isIgnoredWhenHalted = true) (s : State) : t.answer s = none := by
  cases t with
  | hcmd _ => rfl
  | hwrx _ _ => rfl
  | hwrv _ _ => rfl
  | hwracc _ => rfl
  | _ => cases h

/-- All that a transaction but HRESET does in a halted block is to give the answer of a host read. -/
theorem TxEffect.eq_of_halted {s u : State} {t : HostTx} (h : TxEffect s t u) (hs : s.halted = true)
    (ht : t ≠ .hreset) : u = { s with replies := (t.answer s).toList ++ s.replies } := by
  cases h with
  | reset => exact absurd rfl ht
  | ignored t hi _ => rw [HostTx.answer_of_ignored hi]; rfl
  | answers t r hr => rw [hr]; rfl
  | _ => cases ‹s.halted = false›.symm.trans hs

/-- A halted block takes every transaction but HRESET off the host's list and only answers it. -/
theorem step_of_halted {s : State} {t : HostTx} {rest : List HostTx} (hp : s.pending = t :: rest)
    (hs : s.halted = true) (ht : t ≠ .hreset) :
    step s = .next { s with pending := rest, replies := (t.answer (s.taken rest)).toList ++ s.replies } := by
  obtain ⟨u, hu, he⟩ := transact_effect t (s.taken rest)
  rw [step_eq_transact hp, hu, he.eq_of_halted hs ht]
  rfl

/-- A command that is no ill-formed MAC and halts a running block is unfinished or an accumulate, and has raised that
command's fault: every other effect leaves STATUS as it was. -/
theorem CommandEffect.raises_of_halts {i : Instr} {s t : State} (h : CommandEffect i s t) (hwf : i.wf = true)
    (hs : s.halted = false) (ht : t.halted = true) :
    (IsUnfinished i = true ∧ t = s.raise .notImplemented (encode i)) ∨
      (IsAccumulate i = true ∧ t = s.raise .accOverflow (encode i)) := by
  cases h with
  | illegal h => cases h.symm.trans hwf
  | unfinished h => exact .inl ⟨h, rfl⟩
  | overflowsMacc a b h ho => exact .inr ⟨h ▸ rfl, rfl⟩
  | overflowsMaccd a b h ho => exact .inr ⟨h ▸ rfl, rfl⟩
  | _ => cases hs.symm.trans ht

end Sys2Proof.Machine

namespace Sys2Proof.Proofs

open Sys2Proof.Machine Sys2Proof.Safety

/-- Settles O14: a word that is no command faults, and a decoded command is well-formed, so that only the unfinished
commands and the accumulates can have halted the block, with the word they were decoded from. -/
theorem faultEntryRecordsCauseAndWord : Obligations.FaultEntryRecordsCauseAndWord := by
  intro s t w rest hp hs hstep ht
  cases hd : decode w with
  | illegal why =>
    obtain ⟨u, hu, hf⟩ := step_faults_of_no_command hp hs (by simp [hd])
    rw [hu] at hstep
    cases hstep
    exact .inl ⟨⟨why, rfl⟩, hf⟩
  | command i =>
    obtain ⟨-, -, -, -, hwf⟩ := decode_inv hd
    rw [step_eq_exec hp hs hd] at hstep
    rcases (exec_inv hstep).raises_of_halts hwf hs ht with ⟨hi, rfl⟩ | ⟨hi, rfl⟩ <;> rw [encode_of_decode hd]
    · exact .inr (.inl ⟨i, rfl, hi, faulted_raise _ _ w⟩)
    · exact .inr (.inr ⟨i, rfl, hi, faulted_raise _ _ w⟩)

/-- Settles O8: the next state differs from the state before in the host's lists only, and the answer added is the one
of the transaction's own kind. -/
theorem haltedBlockOnlyAnswersReads : Obligations.HaltedBlockOnlyAnswersReads := by
  intro s t rest hs hp ht
  refine ⟨_, step_of_halted hp hs ht, fun r => ?_, rfl, rfl, hs, rfl, rfl, ?_, ?_, ?_, ?_, ?_, ?_, ?_, ?_, ?_⟩
  · cases r <;> exact ⟨rfl, rfl⟩
  -- Each clause left names the transaction, which fixes its answer.
  all_goals (intros; subst t; rfl)

/-- Settles O12. -/
theorem idleBlockHoldsItsState : Obligations.IdleBlockHoldsItsState := fun _ => step_idle

end Sys2Proof.Proofs

/-! PROOFS. The family of reset and hazards (70_reset_and_hazards.md): HRESET and nothing else makes a register
unwritten or ends a halt, and no run stops. -/

/-! ### What every transaction but HRESET keeps (R260), and runs (R264) -/
namespace Sys2Proof.Safety

open Sys2Proof.Machine

theorem OnlyWrites.keepsWritten {rs : List RegName} {s t : State} (h : OnlyWrites rs s t) {r : RegName}
    (hr : s.isWritten r = true) : t.isWritten r = true := by
  obtain ⟨hkept, hwritten⟩ := h
  by_cases hm : r ∈ rs
  · exact hwritten r hm
  · exact (hkept r hm).2.trans hr

end Sys2Proof.Safety

namespace Sys2Proof.Machine

open Sys2Proof.Safety

/-- A command makes no register unwritten: it writes its write set, or it raises a fault and writes nothing. -/
theorem CommandEffect.keepsWritten {i : Instr} {s t : State} (h : CommandEffect i s t) {r : RegName}
    (hr : s.isWritten r = true) : t.isWritten r = true := by
  rcases h.writes_or_raises with ⟨hw, -⟩ | ⟨c, rfl, -⟩
  · exact hw.keepsWritten hr
  · exact (isWritten_raise s c _ r).trans hr

/-- Of the transactions only HRESET makes a register unwritten. -/
theorem TxEffect.keepsWritten {s u : State} {t : HostTx} (h : TxEffect s t u) (ht : t ≠ .hreset) {r : RegName}
    (hr : s.isWritten r = true) : u.isWritten r = true := by
  cases h with
  | reset => exact absurd rfl ht
  | ignored t hi hs => exact hr
  | command w i u hs hd he => exact (exec_inv he).keepsWritten hr
  | illegal w why hs hd => exact (isWritten_raise s _ w r).trans hr
  | writesX i val hs => exact (ran_writeX s i val).1.keepsWritten hr
  | writesV i val hs => exact (ran_writeV s i val).1.keepsWritten hr
  | writesAcc val hs => exact (ran_writeAcc s val).1.keepsWritten hr
  | answers t a ha => exact (isWritten_reply s a r).trans hr

/-- Of the transactions only HRESET ends a halt: the others leave a halted block as it is, but for their answers. -/
theorem TxEffect.keepsHalt {s u : State} {t : HostTx} (h : TxEffect s t u) (ht : t ≠ .hreset)
    (hs : s.halted = true) : u.halted = true := by
  rw [h.eq_of_halted hs ht]
  exact hs

/-- The state right after reset is what HRESET makes of itself (R260). -/
theorem hostReset_reset : State.reset.hostReset = State.reset := rfl

/-- Every step goes on and takes the first transaction off the host's list, if there is one (R58, R264). -/
theorem step_takes_one (s : State) : ∃ t, step s = .next t ∧ t.pending = s.pending.tail := by
  cases hp : s.pending with
  | nil => exact ⟨s, step_idle hp, hp⟩
  | cons tx rest =>
    obtain ⟨t, ht, he⟩ := transact_effect tx (s.taken rest)
    exact ⟨t, (step_eq_transact hp).trans ht, he.pending⟩

theorem run_succ_of_step {s t : State} (n : Nat) (h : step s = .next t) : core.run (n + 1) s = core.run n t := by
  have hs : core.step s = .next t := h
  simp only [Host.Core.run, hs]

end Sys2Proof.Machine

namespace Sys2Proof.Proofs

open Sys2Proof.Machine Sys2Proof.Safety

/-- Settles O11: HRESET is one of the effects of a transaction, and no other makes a register unwritten or ends a
halt. -/
theorem resetClearsFaultAndWrittenBits : Obligations.ResetClearsFaultAndWrittenBits := by
  refine ⟨fun s rest hp => ?_, fun s u hp hstep => ?_, rfl, rfl, rfl, fun r => ?_⟩
  · exact ⟨_, step_eq_transact hp, rfl, rfl, rfl, isWritten_hostReset _, rfl⟩
  · rcases step_inv hstep with ⟨-, rfl⟩ | ⟨t, rest, ht, he⟩
    · exact ⟨fun _ => id, id⟩
    · have hne : t ≠ .hreset := fun h => hp rest (h ▸ ht)
      exact ⟨fun r hr => he.keepsWritten hne ((isWritten_taken s rest r).trans hr), he.keepsHalt hne⟩
  · exact hostReset_reset ▸ isWritten_hostReset State.reset r

/-- Settles O13, by induction on the number of steps: each goes on and takes one transaction. -/
theorem runNeverStops : Obligations.RunNeverStops := by
  intro n
  induction n with
  | zero => exact fun s => ⟨s, rfl, rfl⟩
  | succ n ih =>
    intro s
    obtain ⟨t, ht, hpt⟩ := step_takes_one s
    obtain ⟨u, hu, hpu⟩ := ih t
    exact ⟨u, (run_succ_of_step n ht).trans hu, by rw [hpu, hpt, List.drop_tail]⟩

end Sys2Proof.Proofs
